-- ==== Sys2Proof/Word.lean ====
section
/-! DEFINITION. The word types of the engine and the names of its registers and banks. -/

namespace Sys2Proof

/-- A word of the engine: W = 64 bits, bit 0 the least significant (00 R5, R6). -/
abbrev Word := BitVec 64

/-- A byte, seen only by a wrapper to a byte-addressed bus (20 R63). -/
abbrev Byte := BitVec 8

/-- A command word (30 R90). -/
abbrev CmdWord := BitVec 32

/-- A host word address: AW = 11 bits, so no address outside 0x000 to 0x7FF can be
presented (20 R60, R68). -/
abbrev Addr := BitVec 11

/-- The eleven control registers (10 R20, R23 to R38). -/
inductive Reg where
  | ID | CFG | CTRL | STATUS | CMD | N | M | DET | DETMOD | DETINV | COFV
  deriving DecidableEq, Repr

/-- The six matrix banks (10 R40). -/
inductive Bank where
  | A | B | C | INV | ADJ | P
  deriving DecidableEq, Repr

/-- The banks a MMUL may select, by the bank codes of 30 R98. -/
inductive BankSel where
  | A | B | C | INV
  deriving DecidableEq, Repr

end Sys2Proof
end

