-- ==== Sys2Proof/Syntax.lean ====
section
/-! DEFINITION. The six commands (30 R92), one constructor per row of spec/opcode_table.json. -/

namespace Sys2Proof

/-- A decoded command (30 R91), fields as unsigned integers (30 R97). -/
inductive Instr where
  /-- Determinant of bank A (40 R124). -/
  | det
  /-- One cofactor of bank A: `i` the row deleted, `j` the column deleted (41 R142). -/
  | cof (i j : Nat)
  /-- Determinant and adjugate of bank A (41 R144). -/
  | adj
  /-- Modular inverse of the scalar in DET (41 R146). -/
  | modinv
  /-- Modular inverse of the matrix in bank A (41 R148). -/
  | minv
  /-- Product of the banks `sa` (left) and `sb` (right), reduced mod m; `rc` asks for the range check
  of the right operand (42 R172). -/
  | mmul (sa sb : BankSel) (rc : Bool)
  deriving DecidableEq, Repr

end Sys2Proof
end

