-- ==== Sys2Proof/WellFormed.lean ====
section
/-! DEFINITION. Which commands have an encoding. -/

namespace Sys2Proof

/-- A command has an encoding iff its fields fit the bits the format gives them: the indices of COF
are 4-bit unsigned integers (30 R96); the bank selectors and the flag of MMUL always fit (30 R95).
An index that is not below n is NOT ill-formed: it is a legal encoding that fails with E_SHAPE. -/
def Instr.wf : Instr → Bool
  | .det => true
  | .cof i j => decide (i < 16) && decide (j < 16)
  | .adj => true
  | .modinv => true
  | .minv => true
  | .mmul _ _ _ => true

end Sys2Proof
end

