-- ==== Sys2Proof/Decode.lean ====
section
/-! DEFINITION. Decoding a command word, total and rejecting by name (30 R91, R99), and the encoder
written from the same encoding tables (30 R94 to R97). -/

namespace Sys2Proof

/-- Why a word is `Illegal` (30 R99). -/
inductive Illegal where
  /-- OP is none of the six opcodes (30 R99 a). -/
  | opcode
  /-- A bit the command's format marks zero is set (30 R99 b to d). -/
  | zeroBits
  deriving DecidableEq, Repr

/-- The opcode field OP = cmd[7:0], the same in every format (30 R90). -/
def opField (w : CmdWord) : BitVec 8 := w.extractLsb' 0 8

/-- The bank a 2-bit code selects (30 R98). -/
def bankOfCode (c : BitVec 2) : BankSel :=
  if c = 0 then .A else if c = 1 then .B else if c = 2 then .C else .INV

/-- The 2-bit code of a bank (30 R98). -/
def codeOfBank : BankSel → Nat
  | .A => 0
  | .B => 1
  | .C => 2
  | .INV => 3

/-- Format Z: bits 31:8 must be zero (30 R94). -/
def decodeZ (i : Instr) (w : CmdWord) : Except Illegal Instr :=
  if w.extractLsb' 8 24 = 0 then .ok i else .error .zeroBits

/-- Format X: I = cmd[11:8], J = cmd[15:12], bits 31:16 must be zero (30 R96). -/
def decodeX (w : CmdWord) : Except Illegal Instr :=
  if w.extractLsb' 16 16 = 0 then
    .ok (.cof (w.extractLsb' 8 4).toNat (w.extractLsb' 12 4).toNat)
  else .error .zeroBits

/-- Format M: SA = cmd[9:8], SB = cmd[11:10], RC = cmd[12], bits 31:13 must be zero (30 R95). -/
def decodeM (w : CmdWord) : Except Illegal Instr :=
  if w.extractLsb' 13 19 = 0 then
    .ok (.mmul (bankOfCode (w.extractLsb' 8 2)) (bankOfCode (w.extractLsb' 10 2)) (w.getLsbD 12))
  else .error .zeroBits

/-- `Decode` of 30 R91: the six opcodes of 30 R92, everything else `Illegal`. -/
def decode (w : CmdWord) : Except Illegal Instr :=
  if opField w = 0x01 then decodeZ .det w
  else if opField w = 0x02 then decodeX w
  else if opField w = 0x03 then decodeZ .adj w
  else if opField w = 0x04 then decodeZ .modinv w
  else if opField w = 0x05 then decodeZ .minv w
  else if opField w = 0x08 then decodeM w
  else .error .opcode

/-- `Encode` of 30 R97, which defines it for commands whose fields fit (`Instr.wf`). For a COF index of
16 or more the formula is taken as it stands, modulo 2^32 (DESIGN CHOICE, log entry 19): such a command
has no encoding, and the word is that of another command or of none. -/
def encode : Instr → CmdWord
  | .det => 0x01
  | .cof i j => BitVec.ofNat 32 (0x02 + 256 * i + 4096 * j)
  | .adj => 0x03
  | .modinv => 0x04
  | .minv => 0x05
  | .mmul sa sb rc =>
    BitVec.ofNat 32 (0x08 + 256 * codeOfBank sa + 1024 * codeOfBank sb + 4096 * rc.toNat)

/-- The opcode of a command (30 R92). -/
def opcodeOf : Instr → BitVec 8
  | .det => 0x01
  | .cof _ _ => 0x02
  | .adj => 0x03
  | .modinv => 0x04
  | .minv => 0x05
  | .mmul _ _ _ => 0x08

/-- The command the decoder reads from a table word: a command is one 32-bit word, every bit above
`nbits` is zero, and bits above 31 of a written word take no part in decoding (30 R90). -/
def decodeTableWord (nbits w : Nat) : Option Instr :=
  match decode (BitVec.ofNat 32 (w % 2 ^ nbits)) with
  | .ok i => some i
  | .error _ => none

end Sys2Proof
end

