-- ==== Sys2Proof/Config.lean ====
section
/-! DEFINITION. The implementation parameters of 00 R5 at the values of this hardware, and the one
free value of the spec. -/

namespace Sys2Proof

/-- Width in bits of a word (00 R5). -/
def Config.W : Nat := 64

/-- Largest matrix dimension the engine accepts (00 R5). -/
def Config.NMAX : Nat := 10

/-- Words between the starts of two rows of a bank (00 R5). -/
def Config.STRIDE : Nat := 16

/-- Bits of a host word address (00 R5). -/
def Config.AW : Nat := 11

/-- Value of register M after reset (00 R5, 10 R34). -/
def Config.M_RESET : Word := 28

/-- Value of register ID (00 R1, R5; 10 R23). -/
def Config.ID_VALUE : Word := 0x53414543

/-- Value of register CFG: NMAX + 256·W + 65536·STRIDE (00 R5, 10 R24). -/
def Config.CFG_VALUE : Word :=
  BitVec.ofNat 64 (Config.NMAX + 256 * Config.W + 65536 * Config.STRIDE)

/-- What a bank entry that nothing has written reads as: `RESET_ZERO` is true for this hardware
(00 R5, 10 R50; log entry 4). -/
def Config.unwritten : Word := 0

/-- The unspecified word that the `k`-th read of result state made while BUSY = 1 returns
(70 R270, 93 U1; log entry 3). A free value: nothing constrains it. -/
opaque Config.busyWord : Nat → Word

end Sys2Proof
end

