-- ==== Sys2Proof/Machine/Arith.lean ====
section
/-! DEFINITION. The arithmetic of the engine over Z: words as integers (00 R6), matrices (00 R9), the
determinant (40 R120), cofactor and adjugate (41 R140 to R143), the modular inverse of a scalar
(41 R145), the matrix product and its reduction (42 R170, R171). `a mod m` for m ≥ 2 is Lean's
`a % m` on Int, the remainder in [0, m) (00 R7). -/

namespace Sys2Proof.Machine

/-- The signed integer of a word (00 R6). -/
def toS (w : Word) : Int := w.toInt

/-- The word of an integer that fits (00 R6). -/
def toW (z : Int) : Word := BitVec.ofInt 64 z

/-- SMIN = −2^(W−1) (00 R6). -/
def SMIN : Int := -9223372036854775808

/-- SMAX = 2^(W−1) − 1 (00 R6). -/
def SMAX : Int := 9223372036854775807

/-- `fitsW` (00 R6). -/
def fitsW (z : Int) : Bool := decide (SMIN ≤ z) && decide (z ≤ SMAX)

/-- A matrix of dimension `k`, rows and columns counted from 0 (00 R9). -/
abbrev Mat (k : Nat) := Fin k → Fin k → Int

/-- The sum of `f` over all indices below `k`. -/
def sumFin : (k : Nat) → (Fin k → Int) → Int
  | 0, _ => 0
  | k + 1, f => sumFin k (fun i => f i.castSucc) + f (Fin.last k)

/-- `(-1)^k` (00 R9). -/
def sgn (k : Nat) : Int := if k % 2 = 0 then 1 else -1

/-- The index in the larger matrix of index `i` of a minor that deletes index `p`:
`i + (1 if i ≥ p else 0)` (00 R9). -/
def skip {k : Nat} (p : Fin (k + 1)) (i : Fin k) : Fin (k + 1) :=
  if p.val ≤ i.val then i.succ else i.castSucc

/-- The matrix without row `r` and column `c` (00 R9). -/
def minor {k : Nat} (X : Mat (k + 1)) (r c : Fin (k + 1)) : Mat k :=
  fun i j => X (skip r i) (skip c j)

/-- The determinant (40 R120, R121), on dimension k + 1 ≥ 1: it is not defined on dimension 0. -/
def matDet : {k : Nat} → Mat (k + 1) → Int
  | 0, X => X 0 0
  | 1, X => X 0 0 * X 1 1 - X 0 1 * X 1 0
  | k + 2, X => sumFin (k + 3) fun c => sgn c.val * X 0 c * matDet (minor X 0 c)

/-- The cofactor of position (i, j) (41 R140), 1 for dimension 1 (41 R141). -/
def cofactor : {k : Nat} → Mat (k + 1) → Fin (k + 1) → Fin (k + 1) → Int
  | 0, _, _, _ => 1
  | _ + 1, X, i, j => sgn (i.val + j.val) * matDet (minor X i j)

/-- The adjugate, by transposed placement (41 R143). -/
def adjugate {k : Nat} (X : Mat (k + 1)) : Mat (k + 1) :=
  fun r c => cofactor X c r

/-- The loop of `modinv_or_none` (41 R145): remainders r0, r1 and cofactors t0, t1; answers (r0, t0)
when r1 = 0. `fuel` bounds the rounds. -/
def euclid : (fuel : Nat) → (r0 r1 t0 t1 : Int) → Int × Int
  | 0, r0, _, t0, _ => (r0, t0)
  | fuel + 1, r0, r1, t0, t1 =>
    if r1 = 0 then (r0, t0)
    else euclid fuel r1 (r0 - r0 / r1 * r1) t1 (t0 - r0 / r1 * t1)

/-- `modinv_or_none(a, m)` for 0 ≤ a < m, m ≥ 2 (41 R145): the inverse in [1, m), or none when
gcd(a, m) ≠ 1. A round makes r1 smaller, so `a + 1` rounds are enough. -/
def modinvOrNone (a m : Int) : Option Int :=
  let e := euclid (a.toNat + 1) m a 0 1
  if e.1 = 1 then some (e.2 % m) else none

/-- The inverse matrix mod m, step 6 of 41 R147: `(di · G[i][j]) mod m`. -/
def scaleMod {k : Nat} (di : Int) (G : Mat k) (m : Int) : Mat k :=
  fun i j => di * G i j % m

/-- The product (42 R170). -/
def matMul {k : Nat} (X Y : Mat k) : Mat k :=
  fun i j => sumFin k fun l => X i l * Y l j

/-- The elementwise reduction of the finished sums (42 R171). -/
def redm {k : Nat} (T : Mat k) (m : Int) : Mat k :=
  fun i j => T i j % m

/-- Every entry of a matrix passes `p`. -/
def allEntries {k : Nat} (p : Int → Bool) (X : Mat k) : Bool :=
  (List.finRange k).all fun i => (List.finRange k).all fun j => p (X i j)

/-- The walk of 40 R123 (microarchitecture, no rule depends on it): the determinant of the
sub-matrix of `A` given by the rows and columns not yet deleted, in increasing order, without copying
a minor. One row is its one entry; otherwise it expands along the first row of the row list, and
`before` holds the columns already passed, so that the c-th term drops exactly the c-th column.
DESIGN CHOICE (log entry 18): the determinant of dimension 0 is not defined (40 R120, 93 U11), and an
empty row list or column list answers 0 here; no meaning calls the walk. -/
def walkDet (A : Nat → Nat → Int) : (rows cols : List Nat) → Int
  | [], _ => 0
  | [_], [] => 0
  | [r], q :: _ => A r q
  | r :: r' :: rows, cols => walkRow A r (walkDet A (r' :: rows)) [] cols
where
  /-- The sum over the remaining columns of one expansion. -/
  walkRow (A : Nat → Nat → Int) (r : Nat) (det : List Nat → Int) (before : List Nat) :
      List Nat → Int
    | [] => 0
    | q :: cols =>
      sgn before.length * A r q * det (before ++ cols) + walkRow A r det (before ++ [q]) cols

end Sys2Proof.Machine
end

