-- ==== Sys2Proof/Machine/State.lean ====
section
/-! DEFINITION. The state of the engine (10 R20), the host's side of its port as plain data, the ways a
step can stop, and the state after reset (10 R50). -/

namespace Sys2Proof.Machine

/-- The error codes 1 to 7 of 60 R221; a command that succeeds has none. -/
inductive ErrCode where
  | illegal | shape | modulus | noInv | range | notInv | overflow
  deriving DecidableEq, Repr

/-- STATUS by its fields (10 R26); the reserved bits hold nothing and read 0 (log entry 13). -/
structure Status where
  /-- Bit 0: a command is in flight (10 R27). -/
  busy : Bool
  /-- Bit 1: a command has completed since the last issue or clear (10 R28). -/
  done : Bool
  /-- Bit 2: the last completed command ended in error (10 R29). -/
  err : Bool
  /-- Bit 3: bank INV holds the inverse of the present key (10 R30). -/
  invv : Bool
  /-- Bit 4: a host write was dropped because the engine was busy (10 R31). -/
  wdrop : Bool
  /-- Bits 11:8: the error code of the last completed command (10 R29). -/
  errcode : BitVec 4
  deriving DecidableEq, Repr

/-- The six banks: (word address, word) pairs, addresses strictly rising, none holding what an
unlisted entry reads as (10 R40; log entry 4). -/
abbrev Memory := List (Nat × Word)

/-- One operation of the host's script (10 R21, 30 R102). -/
inductive HostOp where
  /-- `MemRead(addr, 1)` (43 R191). -/
  | read (addr : Addr)
  /-- `MemWrite(addr, 1, w)` (43 R192). -/
  | write (addr : Addr) (w : Word)
  /-- `WAIT`: read STATUS until BUSY reads 0 (30 R102; log entry 10). -/
  | wait
  /-- A read of `size` bytes at a byte address, arriving at a wrapper (20 R63, R64; log entry 9). -/
  | busRead (byteAddr size : Nat)
  /-- A write of bytes, lowest address first, arriving at a wrapper (20 R63, R64; log entry 9). -/
  | busWrite (byteAddr : Nat) (data : List Byte)
  /-- The input `rst` is asserted (70 R260; log entry 11). -/
  | reset
  deriving DecidableEq, Repr

/-- The two agents (43 R190). -/
inductive Agent where
  | host | engine
  deriving DecidableEq, Repr

/-- The host's side of the port: the model's own fields, which no rule of the engine reads
(log entries 1 to 3, 9). -/
structure HostSide where
  /-- The port operations still to come, oldest first. -/
  script : List HostOp
  /-- Who takes each coming step that is taken while BUSY = 1; exhausted, the engine moves. -/
  turns : List Agent
  /-- The words the port returned, with their addresses, newest first. -/
  reads : List (Addr × Word)
  /-- The bytes a wrapper answered to reads on its byte bus, with their byte addresses, newest first;
  the byte at the lowest address first (20 R63; log entry 9). -/
  busReads : List (Nat × List Byte)
  /-- How many unspecified words have been handed out. -/
  draws : Nat
  deriving DecidableEq, Repr

/-- The complete state of the engine (10 R20) with the host beside it. ID, CFG and CMD hold nothing
that can change: they are served by the one operation that reads registers. -/
structure State where
  /-- CTRL: bit 0 is IE, the other bits read 0 (10 R25). -/
  ctrl : Word
  /-- STATUS (10 R26). -/
  status : Status
  /-- CMDLATCH, hidden (10 R47). -/
  cmdLatch : CmdWord
  /-- N, the dimension n (10 R33). -/
  n : Word
  /-- M, the modulus m (10 R34). -/
  m : Word
  /-- DET (10 R35). -/
  det : Word
  /-- DETMOD (10 R36). -/
  detmod : Word
  /-- DETINV (10 R37). -/
  detinv : Word
  /-- COFV (10 R38). -/
  cofv : Word
  /-- Banks A, B, C, INV, ADJ, P (10 R40 to R45). -/
  mem : Memory
  /-- The host's side. -/
  host : HostSide
  deriving DecidableEq, Repr

/-- No step of the engine faults: nothing hangs and every command completes (00 R11, 43 R197,
R198). A command that cannot produce its result ends with an error code in a next state. -/
inductive Fault where
  deriving DecidableEq, Repr

/-- Why a step has no meaning. -/
inductive Refusal where
  /-- Raised only by an arm of `exec` for a command without a meaning (there is none). Safe. -/
  | notModelled (mnemonic : String)
  /-- Raised by a host step whose operation is a bus access that a wrapper must refuse without
  presenting it to the engine: narrower, wider, misaligned or outside the engine's range
  (20 R64, R68; 93 U8; log entry 9). Safe. -/
  | busAccess (byteAddr size : Nat)
  deriving DecidableEq, Repr

/-- STATUS after reset: 0 (10 R50). -/
def Status.reset : Status :=
  { busy := false, done := false, err := false, invv := false, wdrop := false, errcode := 0 }

/-- The state after reset (10 R50, 70 R260). The host's side is the model's own: no script, no
schedule, nothing read (log entries 1 to 3, 9). -/
def State.reset : State :=
  { ctrl := 0
    status := Status.reset
    cmdLatch := 0
    n := 0
    m := Config.M_RESET
    det := 0
    detmod := 0
    detinv := 0
    cofv := 0
    mem := []
    host := { script := [], turns := [], reads := [], busReads := [], draws := 0 } }

end Sys2Proof.Machine
end

