-- ==== Sys2Proof/Machine/Flags.lean ====
section
/-! DEFINITION. STATUS and CTRL: their words (10 R25, R26), what an issue, a completion, an error and a
host write do to them, and the output `irq`. -/

namespace Sys2Proof.Machine

/-- The number of an error (60 R221). -/
def ErrCode.num : ErrCode → BitVec 4
  | .illegal => 1
  | .shape => 2
  | .modulus => 3
  | .noInv => 4
  | .range => 5
  | .notInv => 6
  | .overflow => 7

/-- The word of STATUS (10 R26): BUSY bit 0, DONE 1, ERR 2, INVV 3, WDROP 4, ERRCODE 11:8. -/
def Status.word (st : Status) : Word :=
  BitVec.ofNat 64 (st.busy.toNat + 2 * st.done.toNat + 4 * st.err.toNat + 8 * st.invv.toNat
    + 16 * st.wdrop.toNat + 256 * st.errcode.toNat)

/-- A host write to STATUS: bits 1 and 4 are write-one-to-clear, all other bits are ignored
(43 R194). -/
def Status.hostWrite (st : Status) (w : Word) : Status :=
  { st with
    done := st.done && !w.getLsbD 1
    wdrop := st.wdrop && !w.getLsbD 4 }

/-- Issue (43 R196): BUSY set, DONE, ERR and ERRCODE cleared. -/
def Status.issued (st : Status) : Status :=
  { st with busy := true, done := false, err := false, errcode := 0 }

/-- Completion without error (43 R198). -/
def Status.succeeded (st : Status) : Status :=
  { st with busy := false, done := true, err := false, errcode := 0 }

/-- Completion with an error: exactly ERR, ERRCODE, BUSY and DONE change (60 R232). -/
def Status.failed (st : Status) (e : ErrCode) : Status :=
  { st with busy := false, done := true, err := true, errcode := e.num }

/-- A host write was dropped (10 R31, R46). -/
def Status.dropped (st : Status) : Status := { st with wdrop := true }

/-- INVV set by a successful MINV (41 R148). -/
def Status.inverseValid (st : Status) : Status := { st with invv := true }

/-- INVV cleared by an accepted write to N, M or bank A (10 R30). -/
def Status.inverseStale (st : Status) : Status := { st with invv := false }

/-- The word CTRL keeps of a written word: bit 0 only (10 R25, 43 R192). -/
def ctrlWord (w : Word) : Word := (w.extractLsb' 0 1).setWidth 64

/-- CTRL.IE (10 R25). -/
def State.ie (s : State) : Bool := s.ctrl.getLsbD 0

/-- The output `irq = IE AND DONE` (10 R48, 60 R236). -/
def State.irq (s : State) : Bool := s.ie && s.status.done

end Sys2Proof.Machine
end

