-- ==== Sys2Proof/Machine/Ops.lean ====
section
/-! DEFINITION. The named operations over the banks, the address map and the registers, and the ends of
a command: success, and error entry as ONE shared operation (60 R232). -/

namespace Sys2Proof.Machine

/-- What one step answers. -/
abbrev Outcome := Host.Outcome State Fault Refusal

/-! ### Banks -/

/-- The first word address of a bank (10 R40, 20 R61). -/
def bankBase : Bank → Nat
  | .A => 0x100
  | .B => 0x200
  | .C => 0x300
  | .INV => 0x400
  | .ADJ => 0x500
  | .P => 0x600

/-- The word address of entry (i, j): BASE + STRIDE·i + j (10 R40). -/
def entryAddr (b : Bank) (i j : Nat) : Nat := bankBase b + Config.STRIDE * i + j

/-- A word address names an implemented bank entry: bank 1 to 6, row and column nibble below NMAX
(20 R61). -/
def implemented (a : Nat) : Bool :=
  decide (1 ≤ a / 256) && decide (a / 256 ≤ 6) && decide (a / 16 % 16 < Config.NMAX)
    && decide (a % 16 < Config.NMAX)

/-- The canonical form: addresses strictly rising, every listed entry implemented, none equal to what
an unlisted entry reads as (log entry 4). -/
abbrev memWf (m : Memory) : Prop :=
  m.Pairwise (fun c d => c.1 < d.1) ∧ ∀ c ∈ m, c.2 ≠ Config.unwritten ∧ implemented c.1 = true

/-- The word at a word address of a bank. -/
def memRead : Memory → Nat → Word
  | [], _ => Config.unwritten
  | (k, v) :: t, a => if k = a then v else memRead t a

/-- Put a pair at its place among rising addresses. -/
def memInsert (a : Nat) (w : Word) : Memory → Memory
  | [] => [(a, w)]
  | (k, v) :: t => if a < k then (a, w) :: (k, v) :: t else (k, v) :: memInsert a w t

/-- Write the word at a word address of a bank; writing what an unlisted entry reads as removes the
entry. -/
def memWrite (m : Memory) (a : Nat) (w : Word) : Memory :=
  if w = Config.unwritten then m.filter (fun c => c.1 != a)
  else memInsert a w (m.filter (fun c => c.1 != a))

/-- Write a list of (address, word) pairs. -/
def memWriteAll (m : Memory) (cells : List (Nat × Word)) : Memory :=
  cells.foldl (fun m c => memWrite m c.1 c.2) m

/-- `bank.X[i][j]` (00 R10). -/
def State.entry (s : State) (b : Bank) (i j : Nat) : Word := memRead s.mem (entryAddr b i j)

/-- The (address, word) pairs of a window write, in row-major order. -/
def windowCells {k : Nat} (b : Bank) (X : Mat k) : List (Nat × Word) :=
  (List.finRange k).flatMap fun i =>
    (List.finRange k).map fun j => (entryAddr b i.val j.val, toW (X i j))

/-- `for all i, j < n: bank.X[i][j] <- toW(X[i][j])`: the window only, every other entry keeps its
value (43 R200). -/
def writeWindow {k : Nat} (m : Memory) (b : Bank) (X : Mat k) : Memory :=
  memWriteAll m (windowCells b X)

/-! ### The address map -/

/-- What a host word address names (20 R61). -/
inductive Target where
  | reg (r : Reg)
  | entry (b : Bank) (i j : Nat)
  | reserved
  deriving DecidableEq, Repr

/-- The register at a word address below 0x00B (20 R61). -/
def regAt : Nat → Option Reg
  | 0x000 => some .ID
  | 0x001 => some .CFG
  | 0x002 => some .CTRL
  | 0x003 => some .STATUS
  | 0x004 => some .CMD
  | 0x005 => some .N
  | 0x006 => some .M
  | 0x007 => some .DET
  | 0x008 => some .DETMOD
  | 0x009 => some .DETINV
  | 0x00A => some .COFV
  | _ => none

/-- The bank whose 256 addresses begin at 256·p (20 R61). -/
def bankAt : Nat → Option Bank
  | 1 => some .A
  | 2 => some .B
  | 3 => some .C
  | 4 => some .INV
  | 5 => some .ADJ
  | 6 => some .P
  | _ => none

/-- The address map (20 R61): registers, implemented entries, everything else reserved (10 R39). -/
def addrTarget (a : Addr) : Target :=
  match regAt a.toNat with
  | some r => .reg r
  | none =>
    match bankAt (a.toNat / 256) with
    | some b =>
      if a.toNat / 16 % 16 < Config.NMAX ∧ a.toNat % 16 < Config.NMAX then
        .entry b (a.toNat / 16 % 16) (a.toNat % 16)
      else .reserved
    | none => .reserved

/-- The word address of a register (10 R23 to R38). -/
def regAddr : Reg → Addr
  | .ID => 0x000
  | .CFG => 0x001
  | .CTRL => 0x002
  | .STATUS => 0x003
  | .CMD => 0x004
  | .N => 0x005
  | .M => 0x006
  | .DET => 0x007
  | .DETMOD => 0x008
  | .DETINV => 0x009
  | .COFV => 0x00A

/-! ### Registers -/

/-- The word a register holds (10 R23 to R38): ID and CFG are constants, CMD reads 0. -/
def State.readReg (s : State) : Reg → Word
  | .ID => Config.ID_VALUE
  | .CFG => Config.CFG_VALUE
  | .CTRL => s.ctrl
  | .STATUS => s.status.word
  | .CMD => 0
  | .N => s.n
  | .M => s.m
  | .DET => s.det
  | .DETMOD => s.detmod
  | .DETINV => s.detinv
  | .COFV => s.cofv

/-- The word an address names reads as when the read is exact; a reserved address reads 0 (10 R39). -/
def State.readTarget (s : State) : Target → Word
  | .reg r => s.readReg r
  | .entry b i j => s.entry b i j
  | .reserved => 0

/-- Result state: its reads are unspecified while BUSY = 1 (43 R191, 70 R270). -/
def isResult : Target → Bool
  | .reg .DET => true
  | .reg .DETMOD => true
  | .reg .DETINV => true
  | .reg .COFV => true
  | .entry .C _ _ => true
  | .entry .INV _ _ => true
  | .entry .ADJ _ _ => true
  | .entry .P _ _ => true
  | _ => false

/-! ### The ends of a command -/

/-- Error entry (60 R232): the command ends with an error. It changes exactly STATUS.ERR, ERRCODE,
BUSY and DONE. There is no handler, vector, saved pc or mode (60 R220); there is no return
instruction either (60 R233): the next issue (`issueCommand`) clears ERR and ERRCODE. -/
def raiseError (e : ErrCode) (s : State) : State := { s with status := s.status.failed e }

/-- Completion without error (43 R198), after the writes of the command. -/
def succeed (s : State) : State := { s with status := s.status.succeeded }

/-- The completion step (43 R198): the writes of `Ok` are all in the state the command answers; an
`Err` discards everything but the error. -/
def complete (s : State) (r : Except ErrCode State) : Outcome :=
  match r with
  | .ok t => .next (succeed t)
  | .error e => .next (raiseError e s)

/-- Issue (43 R196): the low 32 bits are latched, BUSY is set, DONE, ERR and ERRCODE are cleared, and
nothing else changes. No check is made here. -/
def issueCommand (w : Word) (s : State) : State :=
  { s with cmdLatch := w.setWidth 32, status := s.status.issued }

/-- Reset (70 R260): every piece of the engine's state at its reset value, in one step; a command in
flight is abandoned (70 R261). The host's side is not the engine's. -/
def resetEngine (s : State) : State := { State.reset with host := s.host }

end Sys2Proof.Machine
end

