-- ==== Sys2Proof/Machine/Operands.lean ====
section
/-! DEFINITION. The operands of the commands: the dimension and the modulus with their checks, the
window of a bank, the bank a selector names, and the tests on operands and results. -/

namespace Sys2Proof.Machine

/-- `n := toS(reg.N)` with the check 1 ≤ n ≤ NMAX (60 R225). It answers n − 1, so that a matrix of
the command has dimension k + 1 ≥ 1; none is E_SHAPE. -/
def dimension? (s : State) : Option Nat :=
  if 1 ≤ toS s.n ∧ toS s.n ≤ Config.NMAX then some ((toS s.n).toNat - 1) else none

/-- `m := toS(reg.M)` with the check m ≥ 2 (60 R226); none is E_MODULUS. -/
def modulus? (s : State) : Option Int :=
  if toS s.m < 2 then none else some (toS s.m)

/-- `win(X, n)`: the top-left corner of a bank, of dimension `k` (00 R9, 10 R40). -/
def win (s : State) (b : Bank) (k : Nat) : Mat k := fun i j => toS (s.entry b i.val j.val)

/-- The bank a selector names (30 R98). -/
def selBank : BankSel → Bank
  | .A => .A
  | .B => .B
  | .C => .C
  | .INV => .INV

/-- The inverse-available check (42 R173): bank INV is selected while INVV = 0. -/
def inverseMissing (sa sb : BankSel) (s : State) : Bool :=
  (decide (sa = .INV) || decide (sb = .INV)) && !s.status.invv

/-- A code in [0, m) (42 R174). -/
def inRange (m z : Int) : Bool := decide (0 ≤ z) && decide (z < m)

/-- Every entry fits a word (60 R230). -/
def allFit {k : Nat} (X : Mat k) : Bool := allEntries fitsW X

end Sys2Proof.Machine
end

