-- ==== Sys2Proof/Machine/Determinant.lean ====
section
/-! DEFINITION. The determinant unit: the command DET (40 R124). -/

namespace Sys2Proof.Machine

/-- `Exec` of DET (40 R124). -/
def detResult (s : State) : Except ErrCode State :=
  match dimension? s with
  | none => .error .shape
  | some k =>
    let d := matDet (win s .A (k + 1))
    if fitsW d then .ok { s with det := toW d } else .error .overflow

/-- DET: the completion of the command (40 R124, 43 R198). -/
def execDet (s : State) : Outcome := complete s (detResult s)

end Sys2Proof.Machine
end

