-- ==== Sys2Proof/Machine/Inverse.lean ====
section
/-! DEFINITION. The adjugate/inverse unit: the commands COF (41 R142), ADJ (41 R144), MODINV (41 R146)
and MINV (41 R148). -/

namespace Sys2Proof.Machine

/-- `Exec` of COF i, j (41 R142): both checks of the indices raise E_SHAPE (60 R225). -/
def cofResult (i j : Nat) (s : State) : Except ErrCode State :=
  match dimension? s with
  | none => .error .shape
  | some k =>
    if h : i < k + 1 ∧ j < k + 1 then
      let v := cofactor (win s .A (k + 1)) ⟨i, h.1⟩ ⟨j, h.2⟩
      if fitsW v then .ok { s with cofv := toW v } else .error .overflow
    else .error .shape

/-- COF: the completion of the command (41 R142, 43 R198). -/
def execCof (i j : Nat) (s : State) : Outcome := complete s (cofResult i j s)

/-- `Exec` of ADJ (41 R144). -/
def adjResult (s : State) : Except ErrCode State :=
  match dimension? s with
  | none => .error .shape
  | some k =>
    let X := win s .A (k + 1)
    let d := matDet X
    let G := adjugate X
    if fitsW d && allFit G then .ok { s with det := toW d, mem := writeWindow s.mem .ADJ G }
    else .error .overflow

/-- ADJ: the completion of the command (41 R144, 43 R198). -/
def execAdj (s : State) : Outcome := complete s (adjResult s)

/-- `Exec` of MODINV (41 R146). -/
def modinvResult (s : State) : Except ErrCode State :=
  match modulus? s with
  | none => .error .modulus
  | some m =>
    let dm := toS s.det % m
    match modinvOrNone dm m with
    | none => .error .notInv
    | some x => .ok { s with detmod := toW dm, detinv := toW x }

/-- MODINV: the completion of the command (41 R146, 43 R198). -/
def execModinv (s : State) : Outcome := complete s (modinvResult s)

/-- `Exec` of MINV (41 R148): the steps of 41 R147, the invertibility test before the adjugate
(41 R149). -/
def minvResult (s : State) : Except ErrCode State :=
  match dimension? s with
  | none => .error .shape
  | some k =>
    match modulus? s with
    | none => .error .modulus
    | some m =>
      let X := win s .A (k + 1)
      let d := matDet X
      let dm := d % m
      match modinvOrNone dm m with
      | none => .error .notInv
      | some di =>
        let G := adjugate X
        if fitsW d && allFit G then
          .ok { s with
            det := toW d
            detmod := toW dm
            detinv := toW di
            mem := writeWindow (writeWindow s.mem .ADJ G) .INV (scaleMod di G m)
            status := s.status.inverseValid }
        else .error .overflow

/-- MINV: the completion of the command (41 R148, 43 R198). -/
def execMinv (s : State) : Outcome := complete s (minvResult s)

end Sys2Proof.Machine
end

