-- ==== Sys2Proof/Machine/Multiply.lean ====
section
/-! DEFINITION. The matrix multiplier: the command MMUL (42 R172). -/

namespace Sys2Proof.Machine

/-- `Exec` of MMUL sa, sb, rc (42 R172): both operands are read whole from `s` before P and C are
written. -/
def mmulResult (sa sb : BankSel) (rc : Bool) (s : State) : Except ErrCode State :=
  match dimension? s with
  | none => .error .shape
  | some k =>
    match modulus? s with
    | none => .error .modulus
    | some m =>
      if inverseMissing sa sb s then .error .noInv
      else
        let X := win s (selBank sa) (k + 1)
        let Y := win s (selBank sb) (k + 1)
        if rc && !allEntries (inRange m) Y then .error .range
        else
          let T := matMul X Y
          if allFit T then
            .ok { s with mem := writeWindow (writeWindow s.mem .P T) .C (redm T m) }
          else .error .overflow

/-- MMUL: the completion of the command (42 R172, 43 R198). -/
def execMmul (sa sb : BankSel) (rc : Bool) (s : State) : Outcome :=
  complete s (mmulResult sa sb rc s)

end Sys2Proof.Machine
end

