-- ==== Sys2Proof/Machine/Dispatch.lean ====
section
/-! DEFINITION. One arm per command (43 R197). `exec i s` is the completion of the command `i` taken at
the state `s` (43 R198; log entry 6). -/

namespace Sys2Proof.Machine

def exec (i : Instr) (s : State) : Host.Outcome State Fault Refusal :=
  match i with
  | .det => Sys2Proof.Machine.execDet s
  | .cof row col => Sys2Proof.Machine.execCof row col s
  | .adj => Sys2Proof.Machine.execAdj s
  | .modinv => Sys2Proof.Machine.execModinv s
  | .minv => Sys2Proof.Machine.execMinv s
  | .mmul sa sb rc => Sys2Proof.Machine.execMmul sa sb rc s

end Sys2Proof.Machine
end

