-- ==== Sys2Proof/Machine/Port.lean ====
section
/-! DEFINITION. The host port: the word a host read returns (43 R191), what a host write does (43 R192),
and the record of what the host has been given (log entries 2, 3). -/

namespace Sys2Proof.Machine

/-- A read of this target is unspecified at this moment (70 R270). -/
def unspecified (s : State) (t : Target) : Bool := s.status.busy && isResult t

/-- The word a host read returns (43 R191): exact, but for result state while BUSY = 1, where it is a
free value (70 R270). -/
def portRead (s : State) (a : Addr) : Word :=
  if unspecified s (addrTarget a) then Config.busyWord s.host.draws
  else s.readTarget (addrTarget a)

/-- The host is given a word: recorded on its side, with a fresh draw used up where the word was
unspecified. No state of the engine changes (20 R67). -/
def observe (a : Addr) (s : State) : State :=
  { s with host :=
    { s.host with
      reads := (a, portRead s a) :: s.host.reads
      draws := if unspecified s (addrTarget a) then s.host.draws + 1 else s.host.draws } }

/-- A write to frozen state while BUSY = 1 is dropped and sets WDROP (10 R46); while BUSY = 0 it is
accepted. -/
def frozenWrite (s accepted : State) : State :=
  if s.status.busy then { s with status := s.status.dropped } else accepted

/-- A host write to a register (43 R192). -/
def writeReg (s : State) (w : Word) : Reg → State
  | .ID => s
  | .CFG => s
  | .CTRL => { s with ctrl := ctrlWord w }
  | .STATUS => { s with status := s.status.hostWrite w }
  | .CMD => frozenWrite s (issueCommand w s)
  | .N => frozenWrite s { s with n := w, status := s.status.inverseStale }
  | .M => frozenWrite s { s with m := w, status := s.status.inverseStale }
  | .DET => frozenWrite s { s with det := w }
  | .DETMOD => s
  | .DETINV => s
  | .COFV => s

/-- A host write to an implemented bank entry (43 R192): A and B are writable, the result banks
ignore it. -/
def writeEntry (s : State) (w : Word) (b : Bank) (i j : Nat) : State :=
  match b with
  | .A =>
    frozenWrite s { s with mem := memWrite s.mem (entryAddr .A i j) w
                           status := s.status.inverseStale }
  | .B => frozenWrite s { s with mem := memWrite s.mem (entryAddr .B i j) w }
  | .C => s
  | .INV => s
  | .ADJ => s
  | .P => s

/-- `MemWrite(addr, 1, w)` (43 R192); a reserved address ignores it, with no flag (10 R39). -/
def portWrite (s : State) (a : Addr) (w : Word) : State :=
  match addrTarget a with
  | .reg r => writeReg s w r
  | .entry b i j => writeEntry s w b i j
  | .reserved => s

end Sys2Proof.Machine
end

