-- ==== Sys2Proof/Machine/Wrapper.lean ====
section
/-! DEFINITION. The wrapper that attaches the word port to a byte-addressed bus (20 R63, R64): little
endian, aligned 8-byte accesses only. -/

namespace Sys2Proof.Machine

/-- The word address of a byte access the wrapper passes: 8 bytes, the byte address a multiple of 8
and at most 0x3FF8. Any other access is refused without presenting it to the engine (20 R64). -/
def wrapperAddr (byteAddr size : Nat) : Option Addr :=
  if size = 8 ∧ byteAddr % 8 = 0 ∧ byteAddr ≤ 0x3FF8 then some (BitVec.ofNat 11 (byteAddr / 8))
  else none

/-- The word of eight bytes, the first at the lowest address holding bits [7:0] (20 R63). -/
def wordOfBytes : List Byte → Word
  | [] => 0
  | b :: t => b.setWidth 64 ||| (wordOfBytes t <<< 8)

/-- The eight bytes of a word, the byte at the lowest address, bits [7:0], first (20 R63). -/
def bytesOfWord (w : Word) : List Byte :=
  (List.range 8).map fun k => w.extractLsb' (8 * k) 8

/-- A bus read the wrapper passes: a read of the word at the port, whose bytes the bus is given. -/
def observeBytes (byteAddr : Nat) (a : Addr) (s : State) : State :=
  { observe a s with host :=
    { (observe a s).host with
      busReads := (byteAddr, bytesOfWord (portRead s a)) :: s.host.busReads } }

end Sys2Proof.Machine
end

