-- ==== Sys2Proof/Machine/HostStep.lean ====
section
/-! DEFINITION. The host's step: the next operation of its script at the port (43 R190, 20 R70), and
whose step comes next (43 R198; log entry 1). -/

namespace Sys2Proof.Machine

/-- The first operation of the script is done. -/
def nextOp (s : State) : State :=
  { s with host := { s.host with script := s.host.script.drop 1 } }

/-- Whose step comes next. While BUSY = 0 only the host can move (43 R190); while BUSY = 1 the
schedule says, and the engine moves when it is exhausted: the completion always comes (43 R198). -/
def mover (s : State) : Agent :=
  if s.status.busy then s.host.turns.headD .engine else .host

/-- A step taken while BUSY = 1 uses up one turn of the schedule. -/
def takeTurn (s : State) : State :=
  if s.status.busy then { s with host := { s.host with turns := s.host.turns.drop 1 } } else s

/-- `WAIT` (30 R102): one read of STATUS; the operation stays at the head of the script while bit 0
(BUSY) reads 1 (log entry 10). -/
def waitStep (s : State) : State :=
  if (portRead s (regAddr .STATUS)).getLsbD 0 then observe (regAddr .STATUS) s
  else nextOp (observe (regAddr .STATUS) s)

/-- One operation of the host. -/
def runOp (op : HostOp) (s : State) : Outcome :=
  match op with
  | .read a => .next (nextOp (observe a s))
  | .write a w => .next (nextOp (portWrite s a w))
  | .wait => .next (waitStep s)
  | .busRead byteAddr size =>
    match wrapperAddr byteAddr size with
    | some a => .next (nextOp (observeBytes byteAddr a s))
    | none => .refused (.busAccess byteAddr size)
  | .busWrite byteAddr data =>
    match wrapperAddr byteAddr data.length with
    | some a => .next (nextOp (portWrite s a (wordOfBytes data)))
    | none => .refused (.busAccess byteAddr data.length)
  | .reset => .next (nextOp (resetEngine s))

/-- The host's step: with no operation left it does nothing (70 R262; log entry 12). -/
def hostStep (s : State) : Outcome :=
  match s.host.script with
  | [] => .next s
  | op :: _ => runOp op s

end Sys2Proof.Machine
end

