-- ==== Sys2Proof/Machine/EngineStep.lean ====
section
/-! DEFINITION. The engine's step: the completion of the command in flight (43 R197, R198). -/

namespace Sys2Proof.Machine

/-- The completion of the word in CMDLATCH: an `Illegal` word completes with E_ILLEGAL and reads and
writes nothing (60 R224; log entry 7), any other is the command it decodes to. -/
def engineStep (s : State) : Outcome :=
  match decode s.cmdLatch with
  | .ok i => exec i s
  | .error _ => .next (raiseError .illegal s)

/-- The state just after the issue of the command word `c`, the engine's step coming next
(43 R196; log entry 2). -/
def inFlight (c : CmdWord) (s : State) : State :=
  { s with
    cmdLatch := c
    status := s.status.issued
    host := { s.host with turns := .engine :: s.host.turns } }

end Sys2Proof.Machine
end

