-- ==== Sys2Proof/Machine/Step.lean ====
section
/-! DEFINITION. One step of the machine (20 R70), and how a command word is placed in flight. -/

namespace Sys2Proof.Machine

/-- One step: of the engine or of the host, whoever moves. -/
def step (s : State) : Host.Outcome State Fault Refusal :=
  match mover s with
  | .engine => engineStep (takeTurn s)
  | .host => hostStep (takeTurn s)

/-- `s` with the command word `w` issued and its completion the very next step (log entry 2). The
engine fetches from no memory: a command exists only as the word written to CMD (10 R21, 20 R73). -/
def State.withFetchWord (s : State) (nbits w : Nat) : State :=
  inFlight (BitVec.ofNat 32 (w % 2 ^ nbits)) s

end Sys2Proof.Machine
end

