-- ==== Sys2Proof/Machine/Script.lean ====
section
/-! DEFINITION. The notation of host scripts and its pseudo-instructions (30 R102, R103): each line is an
exact abbreviation of port operations. -/

namespace Sys2Proof.Machine

/-- What WR and RD name (30 R102). -/
inductive PortName where
  | reg (r : Reg)
  /-- `X[i][j]`. The spec gives it a meaning for i, j < 10 only; the model also takes larger indices
  (DESIGN CHOICE, log entry 17; see `nameAddr`). -/
  | entry (b : Bank) (i j : Nat)
  | addr (a : Addr)
  deriving DecidableEq, Repr

/-- One line of a host script (30 R102, R103). -/
inductive ScriptLine where
  /-- `WR name, value`. -/
  | wr (name : PortName) (value : Int)
  /-- `RD name`. -/
  | rd (name : PortName)
  /-- A command by its mnemonic and operands. -/
  | command (i : Instr)
  /-- `WAIT`. -/
  | wait
  /-- `LDM X, [[r0], [r1], ...]`. The notation has X in A, B only; the model takes any bank, whose
  writes the port then ignores for C, INV, ADJ and P (DESIGN CHOICE, log entry 17). -/
  | ldm (b : Bank) (rows : List (List Int))
  /-- `ENC`: MMUL A, B. -/
  | enc
  /-- `ENC.RC`: MMUL.RC A, B. -/
  | encRc
  /-- `DEC`: MMUL INV, C. -/
  | dec
  /-- `DECB`: MMUL.RC INV, B. -/
  | decb
  /-- `CHKINV`: MMUL INV, A. -/
  | chkinv
  deriving DecidableEq, Repr

/-- The word address a name stands for (30 R102, 10 R40). For an index outside the bank the spec gives
the name no meaning; the model takes the address formula modulo 2^11, so that such a name, or an LDM
with too many rows or columns, names another address (DESIGN CHOICE, log entry 17). -/
def nameAddr : PortName → Addr
  | .reg r => regAddr r
  | .entry b i j => BitVec.ofNat 11 (entryAddr b i j)
  | .addr a => a

/-- A command line writes its command word to CMD (30 R102). `Instr.wf` is not checked: a line with a
COF index of 16 or more, for which 30 R97 gives no word, writes what `encode` answers (DESIGN CHOICE, log
entry 19). -/
def issueLine (i : Instr) : HostOp := .write (regAddr .CMD) ((encode i).setWidth 64)

/-- The writes of LDM, in row-major order (30 R102; the bank and the size are not checked, log
entry 17). -/
def ldmOps (b : Bank) (rows : List (List Int)) : List HostOp :=
  rows.zipIdx.flatMap fun r =>
    r.1.zipIdx.map fun v => .write (nameAddr (.entry b r.2 v.2)) (toW v.1)

/-- The port operations of a line (30 R102, R103); a value is the word it is congruent to, so that
hexadecimal words may be written too (log entry 16). -/
def lineOps : ScriptLine → List HostOp
  | .wr name value => [.write (nameAddr name) (toW value)]
  | .rd name => [.read (nameAddr name)]
  | .command i => [issueLine i]
  | .wait => [.wait]
  | .ldm b rows => ldmOps b rows
  | .enc => [issueLine (.mmul .A .B false)]
  | .encRc => [issueLine (.mmul .A .B true)]
  | .dec => [issueLine (.mmul .INV .C false)]
  | .decb => [issueLine (.mmul .INV .B true)]
  | .chkinv => [issueLine (.mmul .INV .A false)]

/-- The host with a script to run: how a program is loaded (log entry 2). -/
def State.withScript (s : State) (lines : List ScriptLine) : State :=
  { s with host := { s.host with script := lines.flatMap lineOps } }

end Sys2Proof.Machine
end

