-- ==== Sys2Proof/Safety.lean ====
section
/-! DEFINITION. What claims about the engine are stated in: the two ends of a command written out, the
invariants of 10 R49, what a command reads (43 R199), and when a run is over (43 R202). -/

namespace Sys2Proof.Machine

/-- The end of a command without error, written out (43 R198). -/
def endedOk (s : State) : State :=
  { s with status := { s.status with busy := false, done := true, err := false, errcode := 0 } }

/-- The end of a command with the error code `c`, written out (60 R232). -/
def endedIn (c : BitVec 4) (s : State) : State :=
  { s with status := { s.status with busy := false, done := true, err := true, errcode := c } }

/-- Two states of the engine that differ at most on the host's side. -/
def sameEngine (s t : State) : Prop := t = { s with host := t.host }

/-- Bank INV holds the inverse of the present key: n and m are legal, every entry of win(INV, n) is in
[0, m), and win(INV, n) · win(A, n) reduced mod m is the identity (10 R49 c). -/
def inverseHolds (s : State) : Prop :=
  ∃ k : Nat, toS s.n = k + 1 ∧ k + 1 ≤ Config.NMAX ∧ 2 ≤ toS s.m ∧
    (∀ i j : Fin (k + 1), 0 ≤ win s .INV (k + 1) i j ∧ win s .INV (k + 1) i j < toS s.m) ∧
    ∀ i j : Fin (k + 1),
      matMul (win s .INV (k + 1)) (win s .A (k + 1)) i j % toS s.m = if i = j then 1 else 0

/-- The invariants of every reachable state (10 R49). -/
structure Inv (s : State) : Prop where
  /-- BUSY = 1 implies DONE = 0 (10 R49 a). -/
  busy_not_done : s.status.busy = true → s.status.done = false
  /-- ERR = 1 iff ERRCODE ≠ 0 (10 R49 b). -/
  err_iff : s.status.err = true ↔ s.status.errcode ≠ 0
  /-- ERRCODE ≤ 7 (10 R49 b). -/
  errcode_le : s.status.errcode.toNat ≤ 7
  /-- BUSY = 1 implies ERR = 0 (10 R49 b). -/
  busy_not_err : s.status.busy = true → s.status.err = false
  /-- INVV = 1 implies that INV is the inverse of the present key (10 R49 c). -/
  inverse_valid : s.status.invv = true → inverseHolds s
  /-- CTRL[W−1:1] = 0 (10 R49 d). -/
  ctrl_reserved : s.ctrl.toNat ≤ 1
  /-- The reserved bits of STATUS, 7:5 and 63:12, are 0 (10 R49 d). -/
  status_reserved : s.status.word.toNat / 32 % 8 = 0 ∧ s.status.word.toNat / 4096 = 0

/-- Two states agree on the n×n window of a bank, n the value of N in the first. -/
def sameWindow (b : Bank) (s s' : State) : Prop :=
  ∀ i j : Nat, (i : Int) < toS s.n → (j : Int) < toS s.n → s.entry b i j = s'.entry b i j

/-- Two states agree on everything the command reads (43 R199). -/
def sameReads (i : Instr) (s s' : State) : Prop :=
  match i with
  | .det => s.n = s'.n ∧ sameWindow .A s s'
  | .cof _ _ => s.n = s'.n ∧ sameWindow .A s s'
  | .adj => s.n = s'.n ∧ sameWindow .A s s'
  | .modinv => s.m = s'.m ∧ s.det = s'.det
  | .minv => s.n = s'.n ∧ s.m = s'.m ∧ sameWindow .A s s'
  | .mmul sa sb _ =>
    s.n = s'.n ∧ s.m = s'.m ∧ s.status.invv = s'.status.invv ∧
      sameWindow (selBank sa) s s' ∧ sameWindow (selBank sb) s s'

/-- Two states after a command that succeeded agree on everything the command wrote (43 R199). -/
def sameResults (i : Instr) (t t' : State) : Prop :=
  match i with
  | .det => t.det = t'.det
  | .cof _ _ => t.cofv = t'.cofv
  | .adj => t.det = t'.det ∧ sameWindow .ADJ t t'
  | .modinv => t.detmod = t'.detmod ∧ t.detinv = t'.detinv
  | .minv =>
    t.det = t'.det ∧ t.detmod = t'.detmod ∧ t.detinv = t'.detinv ∧
      sameWindow .ADJ t t' ∧ sameWindow .INV t t' ∧
      t.status.invv = true ∧ t'.status.invv = true
  | .mmul _ _ _ => sameWindow .P t t' ∧ sameWindow .C t t'

/-- The banks a command writes when it succeeds (43 R199). -/
def banksWritten : Instr → List Bank
  | .det => []
  | .cof _ _ => []
  | .adj => [.ADJ]
  | .modinv => []
  | .minv => [.ADJ, .INV]
  | .mmul _ _ _ => [.P, .C]

/-- The registers a command writes when it succeeds (43 R199). -/
def registersWritten : Instr → List Reg
  | .det => [.DET]
  | .cof _ _ => [.COFV]
  | .adj => [.DET]
  | .modinv => [.DETMOD, .DETINV]
  | .minv => [.DET, .DETMOD, .DETINV]
  | .mmul _ _ _ => []

/-- The window of a bank as a matrix of the library, written out (00 R9). -/
def bankMatrix (s : State) (b : Bank) (n : Nat) : Matrix (Fin n) (Fin n) Int :=
  Matrix.of fun i j => (s.entry b i.val j.val).toInt

/-- An integer fits a 64-bit two's-complement word (00 R6). -/
def fits64 (z : Int) : Prop := -2 ^ 63 ≤ z ∧ z < 2 ^ 63

/-- The host takes the next step: always while BUSY = 0, else if the schedule says so (43 R190). -/
def hostMoves (s : State) : Prop :=
  s.status.busy = false ∨ s.host.turns.headD .engine = .host

/-- The engine takes the next step: only while BUSY = 1, if the schedule says so or is exhausted
(43 R190, R198). -/
def engineMoves (s : State) : Prop :=
  s.status.busy = true ∧ s.host.turns.headD .engine = .engine

/-- The state in which a step acts: one turn of the schedule is used up while BUSY = 1. -/
def afterTurn (s : State) : State :=
  { s with host := { s.host with
      turns := if s.status.busy then s.host.turns.drop 1 else s.host.turns } }

/-- The reserved addresses: 0x00B to 0x0FF, 0x700 to 0x7FF, and the unimplemented entries inside each
bank (10 R39, 20 R61). -/
def reservedAddr (a : Addr) : Prop :=
  (0x00B ≤ a.toNat ∧ a.toNat ≤ 0x0FF) ∨ 0x700 ≤ a.toNat ∨
    (0x100 ≤ a.toNat ∧ a.toNat ≤ 0x6FF ∧ (10 ≤ a.toNat / 16 % 16 ∨ 10 ≤ a.toNat % 16))

/-- The addresses whose accepted write clears INVV: N, M, an implemented entry of bank A (10 R30). -/
def keyAddr (a : Addr) : Prop :=
  a.toNat = 0x005 ∨ a.toNat = 0x006 ∨
    ∃ i j : Nat, i < 10 ∧ j < 10 ∧ a.toNat = 0x100 + 16 * i + j

/-- The address an operation writes at the port, if it writes. -/
def writtenAddr : HostOp → Option Addr
  | .read _ => none
  | .write a _ => some a
  | .wait => none
  | .busRead _ _ => none
  | .busWrite byteAddr data => wrapperAddr byteAddr data.length
  | .reset => none

/-- An operation that reaches the port: not a reset, and not a bus access the wrapper refuses
(20 R64). -/
def portOp : HostOp → Bool
  | .read _ => true
  | .write _ _ => true
  | .wait => true
  | .busRead byteAddr size =>
    decide (size = 8) && decide (byteAddr % 8 = 0) && decide (byteAddr ≤ 0x3FF8)
  | .busWrite byteAddr data =>
    decide (data.length = 8) && decide (byteAddr % 8 = 0) && decide (byteAddr ≤ 0x3FF8)
  | .reset => false

/-- A run is over: nothing left in the script and BUSY = 0 (43 R202). -/
def runOver (s : State) : Prop := s.host.script = [] ∧ s.status.busy = false

end Sys2Proof.Machine
end

