-- ==== Sys2Proof/Certificates/Slice0/Obligations.lean ====
section
/-! DEFINITION. The statements for the provers. Each is about every state, not only those a run reaches;
"the model's choice" marks what rests on a log entry rather than on a rule of the spec. -/

open Sys2Proof Sys2Proof.Machine

/-! ### Encoding -/

/-- Words written out from the formats of 30 R94 to R96 decode to the commands they stand for, and
three illegal words are refused (sanity; 95 §2.1). -/
def Obligations.CommandWordsDecode : Prop :=
  decode 0x00000001 = .ok .det ∧
  decode 0x00000102 = .ok (.cof 1 0) ∧
  decode 0x00001002 = .ok (.cof 0 1) ∧
  decode 0x0000FF02 = .ok (.cof 15 15) ∧
  decode 0x00000003 = .ok .adj ∧
  decode 0x00000004 = .ok .modinv ∧
  decode 0x00000005 = .ok .minv ∧
  decode 0x00000408 = .ok (.mmul .A .B false) ∧
  decode 0x00001708 = .ok (.mmul .INV .B true) ∧
  decode 0x00000B08 = .ok (.mmul .INV .C false) ∧
  decode 0x00000101 = .error .zeroBits ∧
  decode 0x00002008 = .error .zeroBits ∧
  decode 0x00000000 = .error .opcode

/-- 30 R97: `Encode`'s values, the fields of a decoded word, and that decoding and encoding are inverse
to each other on every encodable command and on every legal word. -/
def Obligations.DecodeAndEncodeAgree : Prop :=
  (encode .det = 0x01 ∧ encode .adj = 0x03 ∧ encode .modinv = 0x04 ∧ encode .minv = 0x05) ∧
  (∀ i j : Nat, i ≤ 15 → j ≤ 15 → (encode (.cof i j)).toNat = 0x02 + 256 * i + 4096 * j) ∧
  (∀ (sa sb : BankSel) (rc : Bool), ∃ a b : Nat,
    (sa = .A ∧ a = 0 ∨ sa = .B ∧ a = 1 ∨ sa = .C ∧ a = 2 ∨ sa = .INV ∧ a = 3) ∧
    (sb = .A ∧ b = 0 ∨ sb = .B ∧ b = 1 ∨ sb = .C ∧ b = 2 ∨ sb = .INV ∧ b = 3) ∧
    (encode (.mmul sa sb rc)).toNat = 0x08 + 256 * a + 1024 * b + 4096 * (if rc then 1 else 0)) ∧
  (∀ i : Instr, i.wf = true → decode (encode i) = .ok i) ∧
  (∀ (w : CmdWord) (i : Instr), decode w = .ok i → i.wf = true ∧ encode i = w) ∧
  (∀ (w : CmdWord) (i j : Nat), decode w = .ok (.cof i j) →
    i = w.toNat / 256 % 16 ∧ j = w.toNat / 4096 % 16)

/-- A word decodes to the command of a row of the opcode table exactly when its bits under the row's
mask are the row's match (30 R94, R95, R96; opcode_table.json). -/
def Obligations.TableRowsDecideDecoding : Prop :=
  ∀ w : CmdWord,
    (decode w = .ok .det ↔ w &&& 0xFFFFFFFF = 0x00000001) ∧
    ((∃ i j, decode w = .ok (.cof i j)) ↔ w &&& 0xFFFF00FF = 0x00000002) ∧
    (decode w = .ok .adj ↔ w &&& 0xFFFFFFFF = 0x00000003) ∧
    (decode w = .ok .modinv ↔ w &&& 0xFFFFFFFF = 0x00000004) ∧
    (decode w = .ok .minv ↔ w &&& 0xFFFFFFFF = 0x00000005) ∧
    ((∃ sa sb rc, decode w = .ok (.mmul sa sb rc)) ↔ w &&& 0xFFFFE0FF = 0x00000008)

/-- 30 R99: which words are illegal, that an illegal word in flight completes with E_ILLEGAL (60 R224)
and changes nothing else of the engine (60 R232), and that 292 words are legal. That the step uses up
one turn of the schedule is the model's choice (log entry 1). -/
def Obligations.IllegalWordsFail : Prop :=
  (∀ w : CmdWord,
    (∀ i, decode w ≠ .ok i) ↔
      (w.toNat % 256 ∉ [0x01, 0x02, 0x03, 0x04, 0x05, 0x08] ∨
       (w.toNat % 256 ∈ [0x01, 0x03, 0x04, 0x05] ∧ w.toNat / 2 ^ 8 ≠ 0) ∨
       (w.toNat % 256 = 0x02 ∧ w.toNat / 2 ^ 16 ≠ 0) ∨
       (w.toNat % 256 = 0x08 ∧ w.toNat / 2 ^ 13 ≠ 0))) ∧
  (∀ s : State, engineMoves s → (∀ i, decode s.cmdLatch ≠ .ok i) →
    step s = .next (endedIn 1 (afterTurn s))) ∧
  Nat.card { w : CmdWord // ∃ i, decode w = .ok i } = 292

/-- 30 R103: the pseudo-instructions are the writes of their command words to CMD. -/
def Obligations.PseudoInstructionWords : Prop :=
  lineOps .enc = [.write 0x004 0x00000408] ∧
  lineOps .encRc = [.write 0x004 0x00001408] ∧
  lineOps .dec = [.write 0x004 0x00000B08] ∧
  lineOps .decb = [.write 0x004 0x00001708] ∧
  lineOps .chkinv = [.write 0x004 0x00000308]

/-- LDM writes entry (i, j) of the bank with the value in row i, column j, and writes nothing else
(30 R102, for A, B, implemented entries and values that fit a word). That the bank and the size are not
checked and that other values are taken modulo 2^64 is the model's choice (log entries 16, 17). -/
def Obligations.LoadMatrixWritesEveryEntry : Prop :=
  ∀ (b : Bank) (rows : List (List Int)) (op : HostOp),
    op ∈ lineOps (.ldm b rows) ↔
      ∃ (i j : Nat) (row : List Int) (v : Int), rows[i]? = some row ∧ row[j]? = some v ∧
        op = .write (BitVec.ofNat 11 (entryAddr b i j)) (BitVec.ofInt 64 v)

/-! ### Steps -/

/-- A step of the engine is the completion of the command its latch decodes to: `exec` of it, with one
turn of the schedule used up (43 R197, R198; the schedule is log entry 1). -/
def Obligations.StepCompletesTheCommandInFlight : Prop :=
  ∀ (s : State) (i : Instr), engineMoves s → decode s.cmdLatch = .ok i →
    step s = exec i (afterTurn s)

/-- A step of the host is the operation at the head of its script (43 R190; log entries 2, 10, 11): a
read records the word of the port, a write is the port's write, WAIT stays while BUSY = 1, and reset
puts the engine at its reset state. -/
def Obligations.StepRunsTheHostOperation : Prop :=
  ∀ (s : State) (rest : List HostOp), hostMoves s →
    let u : State := { afterTurn s with host := { (afterTurn s).host with script := rest } }
    (∀ a, s.host.script = .read a :: rest → ∃ d, step s = .next
      { u with host := { u.host with reads := (a, portRead s a) :: s.host.reads, draws := d } }) ∧
    (∀ a w, s.host.script = .write a w :: rest → step s = .next (portWrite u a w)) ∧
    (s.host.script = .wait :: rest → s.status.busy = false → step s = .next
      { u with host := { u.host with reads := (0x003, s.status.word) :: s.host.reads } }) ∧
    (s.host.script = .wait :: rest → s.status.busy = true → step s = .next
      { u with host := { u.host with
          script := .wait :: rest, reads := (0x003, s.status.word) :: s.host.reads } }) ∧
    (s.host.script = .reset :: rest → step s = .next { State.reset with host := u.host })

/-- With BUSY = 0 and no operation left the machine waits (70 R262; log entry 12). -/
def Obligations.IdleMachineWaits : Prop :=
  ∀ s : State, s.status.busy = false → s.host.script = [] → step s = .next s

/-- The completion always comes (43 R198): from a busy state whose script holds no reset and no bus
access that the wrapper refuses, the command has completed after at most one step more than the
schedule is long (the schedule is the model's, log entry 1). -/
def Obligations.CompletionAlwaysComes : Prop :=
  ∀ s : State, s.status.busy = true → (∀ op ∈ s.host.script, portOp op = true) →
    ∃ k t, k ≤ s.host.turns.length + 1 ∧ Host.Core.run core k s = .next t ∧
      t.status.busy = false ∧ t.status.done = true

/-! ### Host accesses -/

/-- The layout of the STATUS word (10 R26). -/
def Obligations.StatusWordLayout : Prop :=
  ∀ st : Status,
    st.word.getLsbD 0 = st.busy ∧ st.word.getLsbD 1 = st.done ∧ st.word.getLsbD 2 = st.err ∧
    st.word.getLsbD 3 = st.invv ∧ st.word.getLsbD 4 = st.wdrop ∧
    st.word.extractLsb' 8 4 = st.errcode ∧
    ∀ b : Nat, (5 ≤ b ∧ b ≤ 7 ∨ 12 ≤ b) → st.word.getLsbD b = false

/-- The address formula of a bank entry, and that different implemented entries have different
addresses (10 R40). -/
def Obligations.EntryAddresses : Prop :=
  (∀ i j : Nat,
    entryAddr .A i j = 0x100 + 16 * i + j ∧ entryAddr .B i j = 0x200 + 16 * i + j ∧
    entryAddr .C i j = 0x300 + 16 * i + j ∧ entryAddr .INV i j = 0x400 + 16 * i + j ∧
    entryAddr .ADJ i j = 0x500 + 16 * i + j ∧ entryAddr .P i j = 0x600 + 16 * i + j) ∧
  ∀ (b b' : Bank) (i j i' j' : Nat), i < 10 → j < 10 → i' < 10 → j' < 10 →
    entryAddr b i j = entryAddr b' i' j' → b = b' ∧ i = i' ∧ j = j'

/-- 43 R191: a host read changes no state of the engine and returns the word of the table; for result
state while BUSY = 1 nothing is said of the word. -/
def Obligations.HostReadTable : Prop :=
  ∀ (s : State) (a : Addr) (rest : List HostOp), hostMoves s → s.host.script = .read a :: rest →
    ∃ (t : State) (w : Word), step s = .next t ∧ sameEngine s t ∧ t.host.script = rest ∧
      t.host.reads = (a, w) :: s.host.reads ∧
      (a.toNat = 0x000 → w = 0x53414543) ∧
      (a.toNat = 0x001 → w = 0x10400A) ∧
      (a.toNat = 0x002 → w = s.ctrl) ∧
      (a.toNat = 0x003 → w = s.status.word) ∧
      (a.toNat = 0x004 → w = 0) ∧
      (a.toNat = 0x005 → w = s.n) ∧
      (a.toNat = 0x006 → w = s.m) ∧
      (∀ i j : Nat, i < 10 → j < 10 →
        (a.toNat = 0x100 + 16 * i + j → w = s.entry .A i j) ∧
        (a.toNat = 0x200 + 16 * i + j → w = s.entry .B i j)) ∧
      (s.status.busy = false →
        (a.toNat = 0x007 → w = s.det) ∧
        (a.toNat = 0x008 → w = s.detmod) ∧
        (a.toNat = 0x009 → w = s.detinv) ∧
        (a.toNat = 0x00A → w = s.cofv) ∧
        ∀ i j : Nat, i < 10 → j < 10 →
          (a.toNat = 0x300 + 16 * i + j → w = s.entry .C i j) ∧
          (a.toNat = 0x400 + 16 * i + j → w = s.entry .INV i j) ∧
          (a.toNat = 0x500 + 16 * i + j → w = s.entry .ADJ i j) ∧
          (a.toNat = 0x600 + 16 * i + j → w = s.entry .P i j)) ∧
      (reservedAddr a → w = 0)

/-- 43 R192 with R194: what a host write does, address by address, idle and busy. -/
def Obligations.HostWriteTable : Prop :=
  ∀ (s : State) (a : Addr) (w : Word),
    ((a.toNat = 0x000 ∨ a.toNat = 0x001 ∨ a.toNat = 0x008 ∨ a.toNat = 0x009 ∨ a.toNat = 0x00A ∨
        reservedAddr a ∨ (0x300 ≤ a.toNat ∧ a.toNat ≤ 0x6FF)) → portWrite s a w = s) ∧
    (a.toNat = 0x002 → portWrite s a w = { s with ctrl := if w.getLsbD 0 then 1 else 0 }) ∧
    (a.toNat = 0x003 → portWrite s a w = { s with status := { s.status with
      done := if w.getLsbD 1 then false else s.status.done
      wdrop := if w.getLsbD 4 then false else s.status.wdrop } }) ∧
    (s.status.busy = false →
      (a.toNat = 0x004 → portWrite s a w = { s with
        cmdLatch := w.extractLsb' 0 32
        status := { s.status with busy := true, done := false, err := false, errcode := 0 } }) ∧
      (a.toNat = 0x005 → portWrite s a w =
        { s with n := w, status := { s.status with invv := false } }) ∧
      (a.toNat = 0x006 → portWrite s a w =
        { s with m := w, status := { s.status with invv := false } }) ∧
      (a.toNat = 0x007 → portWrite s a w = { s with det := w }) ∧
      (∀ i j : Nat, i < 10 → j < 10 → a.toNat = 0x100 + 16 * i + j →
        portWrite s a w =
          { s with mem := (portWrite s a w).mem, status := { s.status with invv := false } } ∧
        (portWrite s a w).entry .A i j = w ∧
        ∀ x, x ≠ entryAddr .A i j → memRead (portWrite s a w).mem x = memRead s.mem x) ∧
      (∀ i j : Nat, i < 10 → j < 10 → a.toNat = 0x200 + 16 * i + j →
        portWrite s a w = { s with mem := (portWrite s a w).mem } ∧
        (portWrite s a w).entry .B i j = w ∧
        ∀ x, x ≠ entryAddr .B i j → memRead (portWrite s a w).mem x = memRead s.mem x)) ∧
    (s.status.busy = true →
      (a.toNat = 0x004 ∨ a.toNat = 0x005 ∨ a.toNat = 0x006 ∨ a.toNat = 0x007 ∨
        (0x100 ≤ a.toNat ∧ a.toNat ≤ 0x2FF ∧ ¬ reservedAddr a)) →
      portWrite s a w = { s with status := { s.status with wdrop := true } })

/-- 43 R196: a host write to CMD while BUSY = 0 issues the command in one step and changes nothing
else. -/
def Obligations.IssueOfACommand : Prop :=
  ∀ (s : State) (w : Word) (rest : List HostOp), s.status.busy = false →
    s.host.script = .write 0x004 w :: rest →
    step s = .next { s with
      cmdLatch := w.extractLsb' 0 32
      status := { s.status with busy := true, done := false, err := false, errcode := 0 }
      host := { s.host with script := rest } }

/-- 60 R236: the line is IE and DONE; a completion, successful or not, raises it when IE = 1; a write
of 1 to STATUS bit 1, an issue and a reset lower it; IE = 0 masks it. -/
def Obligations.InterruptLine : Prop :=
  ∀ s : State,
    (s.irq = true ↔ s.ctrl.getLsbD 0 = true ∧ s.status.done = true) ∧
    (∀ t, engineMoves s → step s = .next t → t.status.done = true ∧ t.irq = s.ctrl.getLsbD 0) ∧
    (∀ w : Word, w.getLsbD 1 = true → (portWrite s 0x003 w).irq = false) ∧
    (∀ w : Word, s.status.busy = false → (portWrite s 0x004 w).irq = false) ∧
    State.reset.irq = false

/-- 20 R63: a wrapper is little-endian: the aligned 8-byte accesses at byte address 8·a are the word
accesses at `a`, byte 8·a + k being bits [8k+7:8k] of the word written, or of the word the port
returned (the record of the bytes is the model's, log entry 9). -/
def Obligations.WrapperIsLittleEndian : Prop :=
  ∀ (s : State) (a : Addr) (rest : List HostOp), hostMoves s →
    (∀ (bytes : List Byte) (w : Word), bytes.length = 8 →
      (∀ k : Nat, k < 8 → bytes[k]? = some (w.extractLsb' (8 * k) 8)) →
      step { s with host := { s.host with script := .busWrite (8 * a.toNat) bytes :: rest } } =
        step { s with host := { s.host with script := .write a w :: rest } }) ∧
    ∃ (t : State) (w : Word) (bytes : List Byte),
      step { s with host := { s.host with script := .read a :: rest } } = .next t ∧
      t.host.reads = (a, w) :: s.host.reads ∧
      bytes.length = 8 ∧ (∀ k : Nat, k < 8 → bytes[k]? = some (w.extractLsb' (8 * k) 8)) ∧
      step { s with host := { s.host with script := .busRead (8 * a.toNat) 8 :: rest } } =
        .next { t with host := { t.host with
          busReads := (8 * a.toNat, bytes) :: s.host.busReads } }

/-- 20 R64: any other bus access (narrower, wider, misaligned, or outside 0x0000 to 0x3FF8) is
refused and never reaches the engine. -/
def Obligations.WrapperRefusesOtherAccesses : Prop :=
  ∀ (s : State) (byteAddr : Nat) (rest : List HostOp), hostMoves s →
    (∀ size : Nat, (size ≠ 8 ∨ byteAddr % 8 ≠ 0 ∨ 0x3FF8 < byteAddr) →
      s.host.script = .busRead byteAddr size :: rest →
      step s = .refused (.busAccess byteAddr size)) ∧
    (∀ bytes : List Byte, (bytes.length ≠ 8 ∨ byteAddr % 8 ≠ 0 ∨ 0x3FF8 < byteAddr) →
      s.host.script = .busWrite byteAddr bytes :: rest →
      step s = .refused (.busAccess byteAddr bytes.length))

/-- While BUSY = 1 no step of the host but a reset changes what a command reads or holds (10 R46). -/
def Obligations.HostCannotChangeFrozenState : Prop :=
  ∀ s t : State, s.status.busy = true → hostMoves s → s.host.script.head? ≠ some .reset →
    step s = .next t →
    t = { s with ctrl := t.ctrl, host := t.host,
                 status := { s.status with done := t.status.done, wdrop := t.status.wdrop } }

/-- 43 R198: the result of the command in flight is the same before and after a step the host takes
while BUSY = 1 (10 R46): only CTRL, WDROP and the host's side may differ. -/
def Obligations.HostCannotInfluenceTheResult : Prop :=
  ∀ (s t u v : State) (i : Instr), s.status.busy = true → hostMoves s →
    s.host.script.head? ≠ some .reset → step s = .next t →
    exec i s = .next u → exec i t = .next v →
    v = { u with ctrl := t.ctrl, host := t.host,
                 status := { u.status with wdrop := t.status.wdrop } }

/-- 10 R30: when INVV is 1 after a step: a MINV has just completed without error, or it was 1 and the
step was neither a reset nor an accepted write to N, M or an implemented entry of bank A. -/
def Obligations.InverseFlagRule : Prop :=
  ∀ s t : State, step s = .next t →
    (t.status.invv = true ↔
      (engineMoves s ∧ decode s.cmdLatch = .ok .minv ∧ t.status.err = false) ∨
      (s.status.invv = true ∧
        ¬ (hostMoves s ∧ ∃ op rest, s.host.script = op :: rest ∧
          (op = .reset ∨
            (s.status.busy = false ∧ ∃ a, writtenAddr op = some a ∧ keyAddr a)))))

/-! ### Reset -/

/-- 10 R50: the values after reset, and that the engine then waits for host accesses: it has no step
of its own to take. -/
def Obligations.ResetValues : Prop :=
  let r := State.reset
  r.readReg .ID = 0x53414543 ∧ r.readReg .CFG = 0x10400A ∧ r.readReg .CTRL = 0 ∧
  r.readReg .STATUS = 0 ∧ r.readReg .CMD = 0 ∧ r.cmdLatch = 0 ∧ r.readReg .N = 0 ∧
  r.readReg .M = 28 ∧ r.readReg .DET = 0 ∧ r.readReg .DETMOD = 0 ∧ r.readReg .DETINV = 0 ∧
  r.readReg .COFV = 0 ∧ (∀ (b : Bank) (i j : Nat), i < 10 → j < 10 → r.entry b i j = 0) ∧
  r.status.busy = false ∧ r.irq = false ∧ ¬ engineMoves r

/-- 70 R261: a reset while busy abandons the command: BUSY, DONE, ERR and ERRCODE are 0 and no result
is there, the whole engine being at its reset state; any other step of the host leaves the command in
flight. -/
def Obligations.ResetAbandonsTheCommand : Prop :=
  (∀ (s : State) (rest : List HostOp), s.status.busy = true → hostMoves s →
    s.host.script = .reset :: rest →
    ∃ t, step s = .next t ∧ t = { State.reset with host := t.host } ∧ t.host.script = rest ∧
      t.status.busy = false ∧ t.status.done = false ∧ t.status.err = false ∧
      t.status.errcode = 0 ∧ (∀ b i j, t.entry b i j = 0) ∧
      t.det = 0 ∧ t.detmod = 0 ∧ t.detinv = 0 ∧ t.cofv = 0) ∧
  ∀ s t : State, s.status.busy = true → hostMoves s → s.host.script.head? ≠ some .reset →
    step s = .next t → t.status.busy = true ∧ t.cmdLatch = s.cmdLatch

/-- 70 R264: with the reset value in N every command that reads n fails with E_SHAPE. -/
def Obligations.MatrixCommandsNeedADimension : Prop :=
  ∀ s : State, s.n = State.reset.n →
    exec .det s = .next (endedIn 2 s) ∧ (∀ i j, exec (.cof i j) s = .next (endedIn 2 s)) ∧
    exec .adj s = .next (endedIn 2 s) ∧ exec .minv s = .next (endedIn 2 s) ∧
    ∀ sa sb rc, exec (.mmul sa sb rc) s = .next (endedIn 2 s)

/-! ### The arithmetic -/

/-- 40 R120, R121: the recursion of the determinant, expansion along the first row, the sign by the
column within the matrix being expanded. -/
def Obligations.DeterminantRecursion : Prop :=
  (∀ X : Mat 1, matDet X = X 0 0) ∧
  (∀ X : Mat 2, matDet X = X 0 0 * X 1 1 - X 0 1 * X 1 0) ∧
  ∀ (k : Nat) (X : Mat (k + 3)),
    matDet X = ∑ c : Fin (k + 3), (-1) ^ c.val * X 0 c *
      matDet (fun i j : Fin (k + 2) => X i.succ (if c.val ≤ j.val then j.succ else j.castSucc))

/-- 40 R122: the closed form is the expansion at k = 2; the determinant is the permutation sum; the
identity, triangular matrices, and proportional rows in any integer ratio. -/
def Obligations.DeterminantLaws : Prop :=
  (∀ X : Mat 2, X 0 0 * X 1 1 - X 0 1 * X 1 0 = ∑ c : Fin 2, (-1) ^ c.val * X 0 c *
    matDet (fun i j : Fin 1 => X i.succ (if c.val ≤ j.val then j.succ else j.castSucc))) ∧
  (∀ (k : Nat) (X : Mat (k + 1)),
    matDet X = ∑ σ : Equiv.Perm (Fin (k + 1)), (Equiv.Perm.sign σ : Int) * ∏ i, X i (σ i)) ∧
  (∀ k : Nat, matDet (fun i j : Fin (k + 1) => if i = j then 1 else 0) = 1) ∧
  (∀ (k : Nat) (X : Mat (k + 1)),
    ((∀ i j, i < j → X i j = 0) ∨ (∀ i j, j < i → X i j = 0)) → matDet X = ∏ i, X i i) ∧
  (∀ (k : Nat) (X : Mat (k + 1)) (r r' : Fin (k + 1)) (a b : Int),
    (a ≠ 0 ∨ b ≠ 0) → r ≠ r' → (∀ j, a * X r j = b * X r' j) → matDet X = 0)

/-- 40 R123: walking bank A in place with row and column lists gives the determinant: of the matrix
the lists pick out, and, for the minor of position (i, j), with row i and column j left out. -/
def Obligations.IndexWalkIsTheDeterminant : Prop :=
  (∀ (k : Nat) (A : Nat → Nat → Int) (rows cols : Fin (k + 1) → Nat),
    walkDet A (List.ofFn rows) (List.ofFn cols) =
      Matrix.det (Matrix.of fun i j => A (rows i) (cols j))) ∧
  ∀ (k : Nat) (A : Nat → Nat → Int) (i j : Fin (k + 2)),
    walkDet A ((List.range (k + 2)).eraseIdx i) ((List.range (k + 2)).eraseIdx j) =
      Matrix.det ((Matrix.of fun r c : Fin (k + 2) => A r c).submatrix i.succAbove j.succAbove)

/-- 41 R143: transposed placement, and the closed forms for dimensions 1 and 2. -/
def Obligations.AdjugatePlacement : Prop :=
  (∀ (k : Nat) (X : Mat (k + 1)) (i j : Fin (k + 1)), adjugate X j i = cofactor X i j) ∧
  (∀ X : Mat 1, adjugate X 0 0 = 1) ∧
  (∀ X : Mat 2, adjugate X 0 0 = X 1 1 ∧ adjugate X 0 1 = -X 0 1 ∧ adjugate X 1 0 = -X 1 0 ∧
    adjugate X 1 1 = X 0 0)

/-- 41 R145: the scalar solver: an inverse exists iff the gcd is 1, it is the only one in 1..m−1 and
its product with a is 1 mod m; and the rule's consequences for 0, 1 and m − 1. -/
def Obligations.ScalarInverse : Prop :=
  ∀ m : Int, 2 ≤ m →
    (∀ a : Int, 0 ≤ a → a < m →
      (Int.gcd a m ≠ 1 → modinvOrNone a m = none) ∧
      (Int.gcd a m = 1 → ∃ x : Int, modinvOrNone a m = some x ∧ 1 ≤ x ∧ x < m ∧ a * x % m = 1 ∧
        ∀ y : Int, 1 ≤ y → y < m → a * y % m = 1 → y = x)) ∧
    modinvOrNone 0 m = none ∧ modinvOrNone 1 m = some 1 ∧
    modinvOrNone (m - 1) m = some (m - 1)

/-! ### The commands -/

/-- 40 R124: DET, word 0x00000001. E_SHAPE outside 1..10, E_OVERFLOW when the determinant does not fit, else DET holds
it and nothing else changes but the end of the command in STATUS. -/
def Obligations.DetWritesTheDeterminant : Prop :=
  decode 0x00000001 = .ok .det ∧
  ∀ s : State,
    (¬ (1 ≤ s.n.toInt ∧ s.n.toInt ≤ 10) → exec .det s = .next (endedIn 2 s)) ∧
    ∀ k : Nat, s.n.toInt = k + 1 → k + 1 ≤ 10 →
      let d : Int := (bankMatrix s .A (k + 1)).det
      (¬ fits64 d → exec .det s = .next (endedIn 7 s)) ∧
      (fits64 d → exec .det s = .next (endedOk { s with det := BitVec.ofInt 64 d }))

/-- 41 R142: COF I, J, word 0x00000002 + 256·I + 4096·J. E_SHAPE for n or an index, E_OVERFLOW, else COFV holds the signed minor
determinant (1 when n = 1, 41 R141) and nothing else changes but the end of the command. -/
def Obligations.CofWritesTheCofactor : Prop :=
  (∀ I J : Nat, I < 16 → J < 16 →
    decode (BitVec.ofNat 32 (0x00000002 + 256 * I + 4096 * J)) = .ok (.cof I J)) ∧
  ∀ (s : State) (I J : Nat),
    (¬ (1 ≤ s.n.toInt ∧ s.n.toInt ≤ 10) → exec (.cof I J) s = .next (endedIn 2 s)) ∧
    ∀ k : Nat, s.n.toInt = k + 1 → k + 1 ≤ 10 →
      (¬ (I < k + 1 ∧ J < k + 1) → exec (.cof I J) s = .next (endedIn 2 s)) ∧
      ∀ (hI : I < k + 1) (hJ : J < k + 1),
        let v : Int := (-1) ^ (I + J) * ((bankMatrix s .A (k + 1)).submatrix
          (Fin.succAbove ⟨I, hI⟩) (Fin.succAbove ⟨J, hJ⟩)).det
        (¬ fits64 v → exec (.cof I J) s = .next (endedIn 7 s)) ∧
        (fits64 v → exec (.cof I J) s = .next (endedOk { s with cofv := BitVec.ofInt 64 v }))

/-- 41 R144: ADJ, word 0x00000003. E_SHAPE, E_OVERFLOW, else DET holds the determinant and the window of ADJ the
adjugate; every other entry of every bank and everything else is unchanged. -/
def Obligations.AdjWritesTheAdjugate : Prop :=
  decode 0x00000003 = .ok .adj ∧
  ∀ s : State,
    (¬ (1 ≤ s.n.toInt ∧ s.n.toInt ≤ 10) → exec .adj s = .next (endedIn 2 s)) ∧
    ∀ k : Nat, s.n.toInt = k + 1 → k + 1 ≤ 10 →
      let d : Int := (bankMatrix s .A (k + 1)).det
      let G := (bankMatrix s .A (k + 1)).adjugate
      ((¬ fits64 d ∨ ∃ i j, ¬ fits64 (G i j)) → exec .adj s = .next (endedIn 7 s)) ∧
      (fits64 d → (∀ i j, fits64 (G i j)) → ∃ t, exec .adj s = .next t ∧
        t = endedOk { s with det := BitVec.ofInt 64 d, mem := t.mem } ∧
        (∀ i j : Fin (k + 1), (t.entry .ADJ i j).toInt = G i j) ∧
        ∀ a, (∀ i j : Fin (k + 1), a ≠ entryAddr .ADJ i j) →
          memRead t.mem a = memRead s.mem a)

/-- 41 R146: MODINV, word 0x00000004. E_MODULUS, E_NOTINV, else DETMOD holds DET mod m and DETINV its inverse in
1..m−1; nothing else changes but the end of the command. N and the banks are not read. -/
def Obligations.ModinvWritesTheScalarInverse : Prop :=
  decode 0x00000004 = .ok .modinv ∧
  ∀ s : State,
    (s.m.toInt < 2 → exec .modinv s = .next (endedIn 3 s)) ∧
    (2 ≤ s.m.toInt →
      let dm := s.det.toInt % s.m.toInt
      (Int.gcd dm s.m.toInt ≠ 1 → exec .modinv s = .next (endedIn 6 s)) ∧
      (Int.gcd dm s.m.toInt = 1 → ∃ x : Int, 1 ≤ x ∧ x < s.m.toInt ∧ dm * x % s.m.toInt = 1 ∧
        exec .modinv s = .next (endedOk
          { s with detmod := BitVec.ofInt 64 dm, detinv := BitVec.ofInt 64 x })))

/-- 41 R148: MINV, word 0x00000005. E_SHAPE, E_MODULUS, E_NOTINV, E_OVERFLOW in that order, else DET, DETMOD, DETINV,
the windows of ADJ and INV and INVV; every other entry and everything else is unchanged. -/
def Obligations.MinvWritesTheInverse : Prop :=
  decode 0x00000005 = .ok .minv ∧
  ∀ s : State,
    (¬ (1 ≤ s.n.toInt ∧ s.n.toInt ≤ 10) → exec .minv s = .next (endedIn 2 s)) ∧
    ∀ k : Nat, s.n.toInt = k + 1 → k + 1 ≤ 10 →
      (s.m.toInt < 2 → exec .minv s = .next (endedIn 3 s)) ∧
      (2 ≤ s.m.toInt →
        let m := s.m.toInt
        let d : Int := (bankMatrix s .A (k + 1)).det
        let G := (bankMatrix s .A (k + 1)).adjugate
        (Int.gcd (d % m) m ≠ 1 → exec .minv s = .next (endedIn 6 s)) ∧
        (Int.gcd (d % m) m = 1 → (¬ fits64 d ∨ ∃ i j, ¬ fits64 (G i j)) →
          exec .minv s = .next (endedIn 7 s)) ∧
        (Int.gcd (d % m) m = 1 → fits64 d → (∀ i j, fits64 (G i j)) →
          ∃ (t : State) (x : Int), 1 ≤ x ∧ x < m ∧ d % m * x % m = 1 ∧ exec .minv s = .next t ∧
            t = endedOk { s with
              det := BitVec.ofInt 64 d
              detmod := BitVec.ofInt 64 (d % m)
              detinv := BitVec.ofInt 64 x
              mem := t.mem
              status := { s.status with invv := true } } ∧
            (∀ i j : Fin (k + 1), (t.entry .ADJ i j).toInt = G i j) ∧
            (∀ i j : Fin (k + 1), (t.entry .INV i j).toInt = x * G i j % m) ∧
            ∀ a, (∀ i j : Fin (k + 1), a ≠ entryAddr .ADJ i j ∧ a ≠ entryAddr .INV i j) →
              memRead t.mem a = memRead s.mem a))

/-- 42 R172: MMUL, word 0x00000008 + 256·SA + 1024·SB + 4096·RC. E_SHAPE, E_MODULUS, E_NOINV, E_RANGE, E_OVERFLOW in that order, else the window of P
holds the product of the operands as they were before and the window of C its residues; every other
entry and everything else is unchanged. -/
def Obligations.MmulWritesTheProduct : Prop :=
  (∀ (x y : Fin 4) (r : Bool),
    decode (BitVec.ofNat 32 (0x00000008 + 256 * x.val + 1024 * y.val + 4096 * r.toNat)) =
      .ok (.mmul (![.A, .B, .C, .INV] x) (![.A, .B, .C, .INV] y) r)) ∧
  ∀ (s : State) (sa sb : BankSel) (rc : Bool),
    (¬ (1 ≤ s.n.toInt ∧ s.n.toInt ≤ 10) → exec (.mmul sa sb rc) s = .next (endedIn 2 s)) ∧
    ∀ k : Nat, s.n.toInt = k + 1 → k + 1 ≤ 10 →
      (s.m.toInt < 2 → exec (.mmul sa sb rc) s = .next (endedIn 3 s)) ∧
      (2 ≤ s.m.toInt →
        let m := s.m.toInt
        let Y := bankMatrix s (selBank sb) (k + 1)
        let T := bankMatrix s (selBank sa) (k + 1) * Y
        let missing := (sa = .INV ∨ sb = .INV) ∧ s.status.invv = false
        let outside := rc = true ∧ ∃ i j, ¬ (0 ≤ Y i j ∧ Y i j < m)
        (missing → exec (.mmul sa sb rc) s = .next (endedIn 4 s)) ∧
        (¬ missing → outside → exec (.mmul sa sb rc) s = .next (endedIn 5 s)) ∧
        (¬ missing → ¬ outside → (∃ i j, ¬ fits64 (T i j)) →
          exec (.mmul sa sb rc) s = .next (endedIn 7 s)) ∧
        (¬ missing → ¬ outside → (∀ i j, fits64 (T i j)) →
          ∃ t, exec (.mmul sa sb rc) s = .next t ∧ t = endedOk { s with mem := t.mem } ∧
            (∀ i j : Fin (k + 1), (t.entry .P i j).toInt = T i j) ∧
            (∀ i j : Fin (k + 1), (t.entry .C i j).toInt = T i j % m) ∧
            ∀ a, (∀ i j : Fin (k + 1), a ≠ entryAddr .P i j ∧ a ≠ entryAddr .C i j) →
              memRead t.mem a = memRead s.mem a))

/-- 43 R198: every command completes from every state: BUSY is 0, DONE is 1, ERR is 1 iff a code 1 to 7
is given, and WDROP is not touched. -/
def Obligations.EveryCommandCompletes : Prop :=
  ∀ (i : Instr) (s : State), ∃ t, exec i s = .next t ∧ t.status.busy = false ∧
    t.status.done = true ∧ t.status.wdrop = s.status.wdrop ∧
    (t.status.err = true ↔ t.status.errcode ≠ 0) ∧ t.status.errcode.toNat ≤ 7

/-- 60 R232: a command that fails changes exactly ERR, ERRCODE, BUSY and DONE, and the code is 1 to 7. -/
def Obligations.ErrorsWriteOnlyStatus : Prop :=
  ∀ (i : Instr) (s t : State), exec i s = .next t → t.status.err = true →
    t = endedIn t.status.errcode s ∧ 1 ≤ t.status.errcode.toNat ∧ t.status.errcode.toNat ≤ 7

/-- 43 R199, R200: no command writes A, B, N, M or CTRL, it writes only the registers of its row, INVV
only if it is MINV, and of the banks only the n×n windows of its row: every entry outside reads as
before. The latch (log entry 14) and the host's side (log entry 2) are kept too: these two are the
model's choice. -/
def Obligations.CommandsWriteOnlyTheirResults : Prop :=
  ∀ (i : Instr) (s t : State), exec i s = .next t →
    t.ctrl = s.ctrl ∧ t.n = s.n ∧ t.m = s.m ∧ t.cmdLatch = s.cmdLatch ∧ t.host = s.host ∧
    (∀ r, r ≠ .STATUS → r ∉ registersWritten i → t.readReg r = s.readReg r) ∧
    (i ≠ .minv → t.status.invv = s.status.invv) ∧
    (∀ r c : Nat, r < 10 → c < 10 →
      t.entry .A r c = s.entry .A r c ∧ t.entry .B r c = s.entry .B r c) ∧
    ∀ a, (∀ b ∈ banksWritten i, ∀ r c : Nat, (r : Int) < s.n.toInt → (c : Int) < s.n.toInt →
        a ≠ entryAddr b r c) →
      memRead t.mem a = memRead s.mem a

/-- 43 R199: a command's outcome depends only on what the table says it reads: two states that agree
on that give the same error, and the same results when there is none. -/
def Obligations.ResultsDependOnlyOnOperands : Prop :=
  ∀ (i : Instr) (s s' t t' : State), sameReads i s s' → exec i s = .next t →
    exec i s' = .next t' →
    t.status.err = t'.status.err ∧ t.status.errcode = t'.status.errcode ∧
      (t.status.err = false → sameResults i t t')

/-! ### Laws of the inverse and of the two phases -/

/-- 41 R152: after a successful MINV the modular inverse times the key is the identity mod m on both
sides and its entries are in [0, m); a key whose determinant shares a factor with m gives E_NOTINV and
no matrix; and gcd(d mod m, m) = gcd(|d|, m). -/
def Obligations.InverseLaws : Prop :=
  (∀ (s t : State) (k : Nat), s.n.toInt = k + 1 → exec .minv s = .next t → t.status.err = false →
    ∀ i j : Fin (k + 1),
      (bankMatrix t .INV (k + 1) * bankMatrix s .A (k + 1)) i j % s.m.toInt =
        (if i = j then 1 else 0) ∧
      (bankMatrix s .A (k + 1) * bankMatrix t .INV (k + 1)) i j % s.m.toInt =
        (if i = j then 1 else 0) ∧
      0 ≤ (t.entry .INV i j).toInt ∧ (t.entry .INV i j).toInt < s.m.toInt) ∧
  (∀ (s : State) (k : Nat), s.n.toInt = k + 1 → k + 1 ≤ 10 → 2 ≤ s.m.toInt →
    Int.gcd ((bankMatrix s .A (k + 1)).det % s.m.toInt) s.m.toInt ≠ 1 →
    exec .minv s = .next (endedIn 6 s)) ∧
  ∀ d m : Int, 2 ≤ m → Int.gcd (d % m) m = Nat.gcd d.natAbs m.natAbs

/-- After a successful MINV the pair (ADJ, DET) is the rational inverse of the key: DET is not 0 and
the fractions ADJ[i][j] / DET, times the key, give the identity (41 R150). -/
def Obligations.RationalInverse : Prop :=
  ∀ (s t : State) (k : Nat), s.n.toInt = k + 1 → exec .minv s = .next t → t.status.err = false →
    t.det.toInt ≠ 0 ∧ ∀ i j : Fin (k + 1),
      ∑ l : Fin (k + 1), ((t.entry .ADJ i l).toInt : ℚ) / (t.det.toInt : ℚ) *
        ((s.entry .A l j).toInt : ℚ) = if i = j then 1 else 0

/-- 42 R176: after a successful MMUL every entry of the window of C is in [0, m), and a following
`MMUL.RC INV, C` does not end in E_RANGE. -/
def Obligations.ProductIsReduced : Prop :=
  ∀ (s t : State) (sa sb : BankSel) (rc : Bool) (k : Nat), s.n.toInt = k + 1 →
    exec (.mmul sa sb rc) s = .next t → t.status.err = false →
    (∀ i j : Fin (k + 1),
      0 ≤ (t.entry .C i j).toInt ∧ (t.entry .C i j).toInt < s.m.toInt) ∧
    ∃ u, exec (.mmul .INV .C true) t = .next u ∧ u.status.errcode ≠ 5

/-- 42 R177: the round trip. A successful MINV leaves INVV = 1 with the inverse of the present key in
INV. From every state with INVV = 1 and that inverse in place (invariants of 10 R49; whatever was loaded
into B or computed since), after `MMUL A, B` and `MMUL INV, C`, neither failing, the window of C is the
window of B reduced mod m: the window of B itself where its entries are in [0, m). -/
def Obligations.DecryptRecoversThePlaintext : Prop :=
  (∀ s t : State, exec .minv s = .next t → t.status.err = false →
    t.status.invv = true ∧ inverseHolds t) ∧
  ∀ (s t u : State) (rc1 rc2 : Bool), s.status.invv = true → inverseHolds s →
    exec (.mmul .A .B rc1) s = .next t → t.status.err = false →
    exec (.mmul .INV .C rc2) t = .next u → u.status.err = false →
    (∀ i j : Nat, (i : Int) < s.n.toInt → (j : Int) < s.n.toInt →
      (u.entry .C i j).toInt = (s.entry .B i j).toInt % s.m.toInt) ∧
    ((∀ i j : Nat, (i : Int) < s.n.toInt → (j : Int) < s.n.toInt →
        0 ≤ (s.entry .B i j).toInt ∧ (s.entry .B i j).toInt < s.m.toInt) →
      ∀ i j : Nat, (i : Int) < s.n.toInt → (j : Int) < s.n.toInt →
        u.entry .C i j = s.entry .B i j)

/-! ### Invariants -/

/-- The invariants of 10 R49 hold after reset. -/
def Obligations.InvariantsHoldAtReset : Prop := Inv State.reset

/-- Every step keeps the invariants of 10 R49. -/
def Obligations.StepKeepsTheInvariants : Prop :=
  ∀ s t : State, Inv s → step s = .next t → Inv t

/-- The banks are in their canonical form after reset, and every step keeps it (the model's choice, log
entry 4). -/
def Obligations.StepKeepsTheBankForm : Prop :=
  memWf State.reset.mem ∧ ∀ s t : State, memWf s.mem → step s = .next t → memWf t.mem

/-- Canonical memories that read the same everywhere are equal (the model's choice, log entry 4). -/
def Obligations.EqualBanksAreEqualData : Prop :=
  ∀ m m' : Memory, memWf m → memWf m' → (∀ a, memRead m a = memRead m' a) → m = m'
end

