-- ==== Sys2Proof/Laws/Memory.lean ====
section
/-! SUPPORT. The laws of the banks' memory: read after write, the canonical form, equality of canonical
memories, and what a window write does. -/

namespace Sys2Proof.Machine

/-! ### Reading -/

@[simp] theorem memRead_nil (a : Nat) : memRead [] a = Config.unwritten := rfl

theorem memRead_of_not_listed {m : Memory} {a : Nat} (h : ∀ c ∈ m, c.1 ≠ a) :
    memRead m a = Config.unwritten := by
  induction m with
  | nil => rfl
  | cons c t ih =>
    have hc : c.1 ≠ a := h c (by simp)
    simp only [memRead, hc, if_false]
    exact ih fun d hd => h d (by simp [hd])

theorem memRead_filter_self (m : Memory) (a : Nat) :
    memRead (m.filter (fun c => c.1 != a)) a = Config.unwritten :=
  memRead_of_not_listed fun c hc => by simpa using (List.mem_filter.1 hc).2

theorem memRead_filter_of_ne (m : Memory) {a b : Nat} (h : b ≠ a) :
    memRead (m.filter (fun c => c.1 != a)) b = memRead m b := by
  induction m with
  | nil => rfl
  | cons c t ih =>
    by_cases hc : c.1 = a
    · have hb : c.1 ≠ b := fun e => h (e ▸ hc)
      simp [hc, memRead, ih, h.symm]
    · simp [hc, memRead, ih]

/-! ### Inserting and writing -/

theorem memRead_insert_self {m : Memory} {a : Nat} {w : Word} (h : ∀ c ∈ m, c.1 ≠ a) :
    memRead (memInsert a w m) a = w := by
  induction m with
  | nil => simp [memInsert, memRead]
  | cons c t ih =>
    have hc : c.1 ≠ a := h c (by simp)
    unfold memInsert
    split
    · simp [memRead]
    · simp only [memRead, hc, if_false]
      exact ih fun d hd => h d (by simp [hd])

theorem memRead_insert_of_ne (m : Memory) {a b : Nat} (w : Word) (h : b ≠ a) :
    memRead (memInsert a w m) b = memRead m b := by
  induction m with
  | nil => simp [memInsert, memRead, h.symm]
  | cons c t ih =>
    unfold memInsert
    split
    · simp [memRead, h.symm]
    · simp [memRead, ih]

/-- A read of the address written gives the word written. -/
@[simp] theorem memRead_memWrite_self (m : Memory) (a : Nat) (w : Word) :
    memRead (memWrite m a w) a = w := by
  unfold memWrite
  split
  · rename_i h; rw [memRead_filter_self, h]
  · exact memRead_insert_self fun c hc => by simpa using (List.mem_filter.1 hc).2

/-- A write leaves every other address alone. -/
theorem memRead_memWrite_of_ne (m : Memory) {a b : Nat} (w : Word) (h : b ≠ a) :
    memRead (memWrite m a w) b = memRead m b := by
  unfold memWrite
  split
  · exact memRead_filter_of_ne m h
  · rw [memRead_insert_of_ne _ _ h, memRead_filter_of_ne m h]

theorem memRead_memWrite (m : Memory) (a b : Nat) (w : Word) :
    memRead (memWrite m a w) b = if b = a then w else memRead m b := by
  split
  · next h => rw [h, memRead_memWrite_self]
  · next h => exact memRead_memWrite_of_ne m w h

/-! ### The canonical form -/

theorem mem_memInsert {m : Memory} {a : Nat} {w : Word} {c : Nat × Word} :
    c ∈ memInsert a w m ↔ c = (a, w) ∨ c ∈ m := by
  induction m with
  | nil => simp [memInsert]
  | cons d t ih =>
    unfold memInsert
    split
    · simp
    · simp only [List.mem_cons, ih]; tauto

theorem memInsert_rising {m : Memory} {a : Nat} {w : Word}
    (hm : m.Pairwise (fun c d => c.1 < d.1)) (h : ∀ c ∈ m, c.1 ≠ a) :
    (memInsert a w m).Pairwise (fun c d => c.1 < d.1) := by
  induction m with
  | nil => simp [memInsert]
  | cons c t ih =>
    rw [List.pairwise_cons] at hm
    have hc : c.1 ≠ a := h c (by simp)
    unfold memInsert
    split
    · next hlt =>
      refine List.pairwise_cons.2 ⟨fun d hd => ?_, List.pairwise_cons.2 hm⟩
      rcases List.mem_cons.1 hd with rfl | hd
      · exact hlt
      · exact Nat.lt_trans hlt (hm.1 d hd)
    · next hlt =>
      refine List.pairwise_cons.2 ⟨fun d hd => ?_, ih hm.2 fun d hd => h d (by simp [hd])⟩
      rcases mem_memInsert.1 hd with rfl | hd
      · simp only at hlt ⊢; omega
      · exact hm.1 d hd

theorem memWf_nil : memWf [] := by simp [memWf]

/-- A write to an implemented entry keeps the canonical form. -/
theorem memWf_memWrite {m : Memory} {a : Nat} {w : Word} (hm : memWf m)
    (ha : implemented a = true) : memWf (memWrite m a w) := by
  have hf : (m.filter (fun c => c.1 != a)).Pairwise (fun c d => c.1 < d.1) := hm.1.filter _
  unfold memWrite
  split
  · exact ⟨hf, fun c hc => hm.2 c (List.mem_filter.1 hc).1⟩
  · next hw =>
    refine ⟨memInsert_rising hf fun c hc => by simpa using (List.mem_filter.1 hc).2, ?_⟩
    intro c hc
    rcases mem_memInsert.1 hc with rfl | hc
    · exact ⟨hw, ha⟩
    · exact hm.2 c (List.mem_filter.1 hc).1

theorem memWf_memWriteAll {cells : List (Nat × Word)} {m : Memory} (hm : memWf m)
    (hc : ∀ c ∈ cells, implemented c.1 = true) : memWf (memWriteAll m cells) := by
  induction cells generalizing m with
  | nil => exact hm
  | cons c t ih =>
    exact ih (memWf_memWrite hm (hc c (by simp))) fun d hd => hc d (by simp [hd])

/-- A listed pair of a canonical memory is what a read of its address gives. -/
theorem memRead_of_mem {m : Memory} (hm : m.Pairwise (fun c d => c.1 < d.1)) {c : Nat × Word}
    (hc : c ∈ m) : memRead m c.1 = c.2 := by
  induction m with
  | nil => simp at hc
  | cons d t ih =>
    rw [List.pairwise_cons] at hm
    rcases List.mem_cons.1 hc with rfl | hc
    · simp [memRead]
    · have : d.1 ≠ c.1 := Nat.ne_of_lt (hm.1 c hc)
      simp only [memRead, this, if_false]
      exact ih hm.2 hc

/-! ### Many writes -/

/-- What many writes do: where every pair with the address `a` carries `w`, `a` then reads `w` if some
pair has that address, and reads as before otherwise. -/
theorem memRead_memWriteAll {cells : List (Nat × Word)} {a : Nat} {w : Word} (m : Memory)
    (h : ∀ c ∈ cells, c.1 = a → c.2 = w) :
    memRead (memWriteAll m cells) a =
      if ∃ c ∈ cells, c.1 = a then w else memRead m a := by
  induction cells generalizing m with
  | nil => simp [memWriteAll]
  | cons c t ih =>
    have ht := ih (memWrite m c.1 c.2) fun d hd => h d (by simp [hd])
    rw [show memWriteAll m (c :: t) = memWriteAll (memWrite m c.1 c.2) t from rfl, ht]
    by_cases hex : ∃ d ∈ t, d.1 = a
    · obtain ⟨d, hd, hda⟩ := hex
      rw [if_pos ⟨d, hd, hda⟩, if_pos ⟨d, by simp [hd], hda⟩]
    · rw [if_neg hex, memRead_memWrite]
      by_cases hca : c.1 = a
      · rw [if_pos hca.symm, if_pos ⟨c, by simp, hca⟩, h c (by simp) hca]
      · rw [if_neg (fun e => hca e.symm), if_neg]
        rintro ⟨d, hd, hda⟩
        rcases List.mem_cons.1 hd with rfl | hd
        · exact hca hda
        · exact hex ⟨d, hd, hda⟩

end Sys2Proof.Machine
end

