-- ==== Sys2Proof/Laws/Address.lean ====
section
/-! SUPPORT. The address map: entries have different addresses, the map inverts the address formula, and
what a window write does to every entry. -/

namespace Sys2Proof.Machine

theorem nmax_eq : Config.NMAX = 10 := rfl
theorem stride_eq : Config.STRIDE = 16 := rfl

/-- The base of a bank is 256 times its number, 1 to 6. -/
theorem bankBase_eq (b : Bank) :
    ∃ p, 1 ≤ p ∧ p ≤ 6 ∧ bankBase b = 256 * p ∧ bankAt p = some b := by
  cases b
  · exact ⟨1, by decide⟩
  · exact ⟨2, by decide⟩
  · exact ⟨3, by decide⟩
  · exact ⟨4, by decide⟩
  · exact ⟨5, by decide⟩
  · exact ⟨6, by decide⟩

/-- Entries with small indices have different addresses. -/
theorem entryAddr_inj {b b' : Bank} {i j i' j' : Nat} (hi : i < 16) (hj : j < 16) (hi' : i' < 16)
    (hj' : j' < 16) : entryAddr b i j = entryAddr b' i' j' ↔ b = b' ∧ i = i' ∧ j = j' := by
  refine ⟨fun h => ?_, fun ⟨hb, h1, h2⟩ => by rw [hb, h1, h2]⟩
  obtain ⟨p, -, -, hp, hb⟩ := bankBase_eq b
  obtain ⟨p', -, -, hp', hb'⟩ := bankBase_eq b'
  simp only [entryAddr, hp, hp', stride_eq] at h
  have hpp : p = p' := by omega
  subst hpp
  have : some b = some b' := hb.symm.trans hb'
  exact ⟨Option.some.inj this, by omega, by omega⟩

/-- Entries inside the implemented corner are implemented addresses. -/
theorem implemented_entryAddr {b : Bank} {i j : Nat} (hi : i < 10) (hj : j < 10) :
    implemented (entryAddr b i j) = true := by
  obtain ⟨p, h1, h6, hp, -⟩ := bankBase_eq b
  have e : entryAddr b i j = 256 * p + 16 * i + j := by simp [entryAddr, hp, stride_eq]
  have e1 : (256 * p + 16 * i + j) / 256 = p := by omega
  have e2 : (256 * p + 16 * i + j) / 16 % 16 = i := by omega
  have e3 : (256 * p + 16 * i + j) % 16 = j := by omega
  simp [implemented, e, e1, e2, e3, nmax_eq, h1, h6, hi, hj]

theorem regAt_eq_none {a : Nat} (h : 11 ≤ a) : regAt a = none := by
  unfold regAt
  split <;> first | omega | rfl

/-- The address map sends the address of an implemented entry to that entry. -/
theorem addrTarget_entry {b : Bank} {i j : Nat} {a : Addr} (hi : i < 10) (hj : j < 10)
    (ha : a.toNat = entryAddr b i j) : addrTarget a = .entry b i j := by
  obtain ⟨p, h1, h6, hp, hb⟩ := bankBase_eq b
  have e : a.toNat = 256 * p + 16 * i + j := by rw [ha]; simp [entryAddr, hp, stride_eq]
  have e1 : a.toNat / 256 = p := by omega
  have e2 : a.toNat / 16 % 16 = i := by omega
  have e3 : a.toNat % 16 = j := by omega
  simp [addrTarget, regAt_eq_none (show 11 ≤ a.toNat by omega), e1, e2, e3, hb, nmax_eq, hi, hj]

/-- What the address map can answer. -/
theorem addrTarget_cases (a : Addr) :
    (∃ r, regAt a.toNat = some r ∧ addrTarget a = .reg r) ∨
    (∃ b i j, i < 10 ∧ j < 10 ∧ a.toNat = entryAddr b i j ∧ addrTarget a = .entry b i j) ∨
    (11 ≤ a.toNat ∧ (a.toNat < 0x100 ∨ 0x700 ≤ a.toNat ∨ 10 ≤ a.toNat / 16 % 16 ∨
      10 ≤ a.toNat % 16) ∧ addrTarget a = .reserved) := by
  by_cases hr : a.toNat < 11
  · left
    have : ∃ r, regAt a.toNat = some r := by
      generalize a.toNat = x at hr
      interval_cases x <;> exact ⟨_, rfl⟩
    obtain ⟨r, h⟩ := this
    exact ⟨r, h, by simp [addrTarget, h]⟩
  · right
    have hn := regAt_eq_none (Nat.not_lt.1 hr)
    by_cases hb : ∃ b, bankAt (a.toNat / 256) = some b
    · obtain ⟨b, hb⟩ := hb
      have hbase : bankBase b = 256 * (a.toNat / 256) := by
        generalize a.toNat / 256 = p at hb
        unfold bankAt at hb
        split at hb <;> simp at hb <;> subst hb <;> rfl
      by_cases hc : a.toNat / 16 % 16 < 10 ∧ a.toNat % 16 < 10
      · left
        refine ⟨b, a.toNat / 16 % 16, a.toNat % 16, hc.1, hc.2, ?_, ?_⟩
        · simp only [entryAddr, hbase, stride_eq]; omega
        · simp [addrTarget, hn, hb, nmax_eq, hc]
      · right
        refine ⟨by omega, by omega, ?_⟩
        have hc' : ¬ (a.toNat / 16 % 16 < Config.NMAX ∧ a.toNat % 16 < Config.NMAX) := hc
        simp only [addrTarget, hn, hb, if_neg hc']
    · right
      have hb : bankAt (a.toNat / 256) = none := by
        simpa [Option.eq_none_iff_forall_not_mem] using hb
      refine ⟨by omega, ?_, by simp [addrTarget, hn, hb]⟩
      by_contra hcon
      have h1 : 1 ≤ a.toNat / 256 ∧ a.toNat / 256 ≤ 6 := by omega
      generalize a.toNat / 256 = p at hb h1
      obtain ⟨hl, hu⟩ := h1
      interval_cases p <;> simp [bankAt] at hb

/-! ### Windows -/

theorem mem_windowCells {k : Nat} {b : Bank} {X : Mat k} {c : Nat × Word} :
    c ∈ windowCells b X ↔ ∃ i j : Fin k, c = (entryAddr b i.val j.val, toW (X i j)) := by
  simp [windowCells, eq_comm]

/-- An address that is no entry of the window reads as before. -/
theorem memRead_writeWindow_outside {k : Nat} {b : Bank} {X : Mat k} {a : Nat} (m : Memory)
    (h : ∀ i j : Fin k, a ≠ entryAddr b i.val j.val) :
    memRead (writeWindow m b X) a = memRead m a := by
  have hno : ¬ ∃ c ∈ windowCells b X, c.1 = a := by
    rintro ⟨c, hc, hca⟩
    obtain ⟨i, j, rfl⟩ := mem_windowCells.1 hc
    exact h i j hca.symm
  rw [writeWindow, memRead_memWriteAll (w := 0) m fun c hc hca => absurd ⟨c, hc, hca⟩ hno,
    if_neg hno]

/-- An entry of the window reads the word written there. -/
theorem memRead_writeWindow_inside {k : Nat} (hk : k ≤ 16) {b : Bank} {X : Mat k} (m : Memory)
    (i j : Fin k) : memRead (writeWindow m b X) (entryAddr b i.val j.val) = toW (X i j) := by
  have huniq : ∀ c ∈ windowCells b X, c.1 = entryAddr b i.val j.val → c.2 = toW (X i j) := by
    intro c hc hca
    obtain ⟨i', j', rfl⟩ := mem_windowCells.1 hc
    have := (entryAddr_inj (by omega) (by omega) (by omega) (by omega)).1 hca
    have hi : i' = i := Fin.ext this.2.1
    have hj : j' = j := Fin.ext this.2.2
    rw [hi, hj]
  rw [writeWindow, memRead_memWriteAll m huniq, if_pos]
  exact ⟨_, mem_windowCells.2 ⟨i, j, rfl⟩, rfl⟩

/-- A window of another bank is untouched. -/
theorem memRead_writeWindow_other {k : Nat} (hk : k ≤ 16) {b b' : Bank} (hb : b' ≠ b) {X : Mat k}
    (m : Memory) {i j : Nat} (hi : i < 16) (hj : j < 16) :
    memRead (writeWindow m b X) (entryAddr b' i j) = memRead m (entryAddr b' i j) :=
  memRead_writeWindow_outside m fun i' j' h =>
    hb ((entryAddr_inj hi hj (by omega) (by omega)).1 h).1

/-- A window write keeps the canonical form. -/
theorem memWf_writeWindow {k : Nat} (hk : k ≤ 10) {b : Bank} {X : Mat k} {m : Memory}
    (hm : memWf m) : memWf (writeWindow m b X) :=
  memWf_memWriteAll hm fun c hc => by
    obtain ⟨i, j, rfl⟩ := mem_windowCells.1 hc
    exact implemented_entryAddr (by omega) (by omega)

end Sys2Proof.Machine
end

