-- ==== Sys2Proof/Laws/Arith.lean ====
section
/-! SUPPORT. The arithmetic operations in the library's terms: words and integers, sums, signs, and the
index shift of a minor. -/

namespace Sys2Proof.Machine

/-! ### Words and integers -/

theorem SMIN_eq : SMIN = -2 ^ (Config.W - 1) := by decide
theorem SMAX_eq : SMAX = 2 ^ (Config.W - 1) - 1 := by decide

theorem fitsW_iff {z : Int} : fitsW z = true ↔ SMIN ≤ z ∧ z ≤ SMAX := by
  simp [fitsW]

/-- The signed integer of the word of an integer that fits. -/
theorem toS_toW {z : Int} (h : fitsW z = true) : toS (toW z) = z := by
  obtain ⟨h1, h2⟩ := fitsW_iff.1 h
  simp only [SMIN, SMAX] at h1 h2
  simp only [toS, toW, BitVec.toInt_ofInt]
  exact Int.bmod_eq_of_le (by norm_num; omega) (by norm_num; omega)

/-- The word of the signed integer of a word. -/
@[simp] theorem toW_toS (w : Word) : toW (toS w) = w := by simp [toS, toW]

theorem fitsW_toS (w : Word) : fitsW (toS w) = true := by
  have h1 := BitVec.le_toInt w
  have h2 := BitVec.toInt_lt (x := w)
  norm_num at h1 h2
  exact fitsW_iff.2 ⟨by simp only [SMIN, toS]; omega, by simp only [SMAX, toS]; omega⟩

/-- A residue of a modulus that a word holds fits a word. -/
theorem fitsW_residue {z : Int} {w : Word} (h0 : 0 ≤ z) (h : z < toS w) : fitsW z = true := by
  have := (fitsW_iff.1 (fitsW_toS w)).2
  exact fitsW_iff.2 ⟨by simp only [SMIN]; omega, by omega⟩

/-! ### Sums, signs, minors -/

theorem sumFin_eq_sum (k : Nat) (f : Fin k → Int) : sumFin k f = ∑ i, f i := by
  induction k with
  | zero => simp [sumFin]
  | succ k ih => rw [sumFin, ih, Fin.sum_univ_castSucc]

theorem sgn_eq_pow (k : Nat) : sgn k = (-1) ^ k := by
  rcases Nat.even_or_odd k with h | h
  · simp [sgn, Nat.even_iff.1 h, h.neg_one_pow]
  · simp [sgn, Nat.odd_iff.1 h, h.neg_one_pow]

theorem skip_eq_succAbove {k : Nat} (p : Fin (k + 1)) (i : Fin k) : skip p i = p.succAbove i := by
  unfold skip Fin.succAbove
  by_cases h : p.val ≤ i.val
  · rw [if_pos h, if_neg (by simpa [Fin.lt_def] using h)]
  · rw [if_neg h, if_pos (by simpa [Fin.lt_def] using h)]

theorem minor_eq_submatrix {k : Nat} (X : Mat (k + 1)) (r c : Fin (k + 1)) :
    minor X r c = (Matrix.of X).submatrix r.succAbove c.succAbove := by
  funext i j
  simp [minor, skip_eq_succAbove]

theorem allEntries_iff {k : Nat} {p : Int → Bool} {X : Mat k} :
    allEntries p X = true ↔ ∀ i j, p (X i j) = true := by
  simp [allEntries]

theorem matMul_eq_mul {k : Nat} (X Y : Mat k) : matMul X Y = (Matrix.of X * Matrix.of Y) := by
  funext i j
  simp [matMul, sumFin_eq_sum, Matrix.mul_apply]

end Sys2Proof.Machine
end

