-- ==== Sys2Proof/Laws/Commands.lean ====
section
/-! SUPPORT. What the shared operations of the commands can do: the operand checks, the completion, and
one inversion lemma per command. -/

namespace Sys2Proof.Machine

/-! ### Operand checks -/

theorem dimension?_eq_some {s : State} {k : Nat} :
    dimension? s = some k ↔ toS s.n = (k : Int) + 1 ∧ k + 1 ≤ 10 := by
  unfold dimension?
  rw [nmax_eq]
  split
  · next h => simp only [Option.some.injEq]; omega
  · next h =>
    refine ⟨fun e => absurd e (by simp), fun e => absurd ?_ h⟩
    obtain ⟨e1, e2⟩ := e
    omega

theorem dimension?_eq_none {s : State} :
    dimension? s = none ↔ ¬ (1 ≤ toS s.n ∧ toS s.n ≤ 10) := by
  unfold dimension?
  rw [nmax_eq]
  split
  · next h => exact ⟨fun e => absurd e (by simp), fun e => absurd h e⟩
  · next h => exact ⟨fun _ => h, fun _ => rfl⟩

theorem modulus?_eq_some {s : State} {m : Int} :
    modulus? s = some m ↔ toS s.m = m ∧ 2 ≤ m := by
  unfold modulus?
  split
  · next h => exact ⟨fun e => absurd e (by simp), fun e => by omega⟩
  · next h => simp only [Option.some.injEq]; omega

theorem modulus?_eq_none {s : State} : modulus? s = none ↔ toS s.m < 2 := by
  unfold modulus?
  split
  · next h => simp [h]
  · next h => simp [h]

theorem allFit_iff {k : Nat} {X : Mat k} : allFit X = true ↔ ∀ i j, fitsW (X i j) = true :=
  allEntries_iff

theorem inRange_iff {m z : Int} : inRange m z = true ↔ 0 ≤ z ∧ z < m := by
  simp [inRange]

theorem inverseMissing_iff {sa sb : BankSel} {s : State} :
    inverseMissing sa sb s = true ↔ (sa = .INV ∨ sb = .INV) ∧ s.status.invv = false := by
  simp [inverseMissing]

/-! ### Completion -/

/-- What a command computes before its completion (43 R197). -/
def resultOf (i : Instr) (s : State) : Except ErrCode State :=
  match i with
  | .det => detResult s
  | .cof i j => cofResult i j s
  | .adj => adjResult s
  | .modinv => modinvResult s
  | .minv => minvResult s
  | .mmul sa sb rc => mmulResult sa sb rc s

theorem exec_eq_complete (i : Instr) (s : State) : exec i s = complete s (resultOf i s) := by
  cases i <;> rfl

/-- The completion answers a next state, whatever the result. -/
theorem complete_eq_next {s t : State} {r : Except ErrCode State} :
    complete s r = .next t ↔
      (∃ u, r = .ok u ∧ t = succeed u) ∨ (∃ e, r = .error e ∧ t = raiseError e s) := by
  cases r with
  | ok u => simp [complete, eq_comm]
  | error e => simp [complete, eq_comm]

/-- The state a command ends in. -/
def completed (i : Instr) (s : State) : State :=
  match resultOf i s with
  | .ok u => succeed u
  | .error e => raiseError e s

theorem exec_eq_next (i : Instr) (s : State) : exec i s = .next (completed i s) := by
  rw [exec_eq_complete, completed]
  cases resultOf i s <;> rfl

theorem errCode_num_pos (e : ErrCode) : e.num ≠ 0 := by cases e <;> decide
theorem errCode_num_le (e : ErrCode) : e.num.toNat ≤ 7 := by cases e <;> decide

/-! ### One inversion lemma per command -/

theorem detResult_eq_ok {s u : State} :
    detResult s = .ok u ↔ ∃ k, dimension? s = some k ∧ fitsW (matDet (win s .A (k + 1))) = true ∧
      u = { s with det := toW (matDet (win s .A (k + 1))) } := by
  unfold detResult
  cases hk : dimension? s with
  | none => simp
  | some k =>
    by_cases hf : fitsW (matDet (win s .A (k + 1))) = true
    · simp [hf]; exact eq_comm
    · simp [hf]

theorem cofResult_eq_ok {i j : Nat} {s u : State} :
    cofResult i j s = .ok u ↔ ∃ k, dimension? s = some k ∧ ∃ h : i < k + 1 ∧ j < k + 1,
      fitsW (cofactor (win s .A (k + 1)) ⟨i, h.1⟩ ⟨j, h.2⟩) = true ∧
      u = { s with cofv := toW (cofactor (win s .A (k + 1)) ⟨i, h.1⟩ ⟨j, h.2⟩) } := by
  unfold cofResult
  cases hk : dimension? s with
  | none => simp
  | some k =>
    simp only [Option.some.injEq, exists_eq_left']
    by_cases h : i < k + 1 ∧ j < k + 1
    · simp only [dif_pos h]
      by_cases hf : fitsW (cofactor (win s .A (k + 1)) ⟨i, h.1⟩ ⟨j, h.2⟩) = true
      · rw [if_pos hf]
        exact ⟨fun e => ⟨h, hf, (Except.ok.inj e).symm⟩, fun ⟨_, _, e⟩ => e ▸ rfl⟩
      · rw [if_neg hf]
        exact ⟨fun e => (nomatch e), fun ⟨_, hf', _⟩ => absurd hf' hf⟩
    · simp only [dif_neg h]
      exact ⟨fun e => (nomatch e), fun ⟨h', _⟩ => absurd h' h⟩

theorem adjResult_eq_ok {s u : State} :
    adjResult s = .ok u ↔ ∃ k, dimension? s = some k ∧
      fitsW (matDet (win s .A (k + 1))) = true ∧ allFit (adjugate (win s .A (k + 1))) = true ∧
      u = { s with
        det := toW (matDet (win s .A (k + 1)))
        mem := writeWindow s.mem .ADJ (adjugate (win s .A (k + 1))) } := by
  unfold adjResult
  cases hk : dimension? s with
  | none => simp
  | some k =>
    by_cases hf : fitsW (matDet (win s .A (k + 1))) = true ∧
        allFit (adjugate (win s .A (k + 1))) = true
    · simp [hf]; exact eq_comm
    · rw [← Bool.and_eq_true] at hf
      simp only [hf]
      simp at hf ⊢
      exact fun h1 h2 => absurd h2 (by simpa using hf h1)

theorem modinvResult_eq_ok {s u : State} :
    modinvResult s = .ok u ↔ ∃ m x, modulus? s = some m ∧
      modinvOrNone (toS s.det % m) m = some x ∧
      u = { s with detmod := toW (toS s.det % m), detinv := toW x } := by
  unfold modinvResult
  cases hm : modulus? s with
  | none => simp
  | some m => cases hx : modinvOrNone (toS s.det % m) m with
    | none => simp [hx]
    | some x => simp [hx]; exact eq_comm

theorem minvResult_eq_ok {s u : State} :
    minvResult s = .ok u ↔ ∃ k m di, dimension? s = some k ∧ modulus? s = some m ∧
      modinvOrNone (matDet (win s .A (k + 1)) % m) m = some di ∧
      fitsW (matDet (win s .A (k + 1))) = true ∧ allFit (adjugate (win s .A (k + 1))) = true ∧
      u = { s with
        det := toW (matDet (win s .A (k + 1)))
        detmod := toW (matDet (win s .A (k + 1)) % m)
        detinv := toW di
        mem := writeWindow (writeWindow s.mem .ADJ (adjugate (win s .A (k + 1)))) .INV
          (scaleMod di (adjugate (win s .A (k + 1))) m)
        status := s.status.inverseValid } := by
  unfold minvResult
  cases hk : dimension? s with
  | none => simp
  | some k =>
    cases hm : modulus? s with
    | none => simp
    | some m =>
      cases hd : modinvOrNone (matDet (win s .A (k + 1)) % m) m with
      | none => simp [hd]
      | some di =>
        by_cases hf : fitsW (matDet (win s .A (k + 1))) = true ∧
            allFit (adjugate (win s .A (k + 1))) = true
        · simp [hd, hf]; exact eq_comm
        · rw [← Bool.and_eq_true] at hf
          simp only [hf]
          simp [hd] at hf ⊢
          exact fun h1 h2 => absurd h2 (by simpa using hf h1)

theorem mmulResult_eq_ok {sa sb : BankSel} {rc : Bool} {s u : State} :
    mmulResult sa sb rc s = .ok u ↔ ∃ k m, dimension? s = some k ∧ modulus? s = some m ∧
      inverseMissing sa sb s = false ∧
      (rc = true → allEntries (inRange m) (win s (selBank sb) (k + 1)) = true) ∧
      allFit (matMul (win s (selBank sa) (k + 1)) (win s (selBank sb) (k + 1))) = true ∧
      u = { s with
        mem := writeWindow
          (writeWindow s.mem .P (matMul (win s (selBank sa) (k + 1)) (win s (selBank sb) (k + 1))))
          .C (redm (matMul (win s (selBank sa) (k + 1)) (win s (selBank sb) (k + 1))) m) } := by
  unfold mmulResult
  cases hk : dimension? s with
  | none => simp
  | some k =>
    cases hm : modulus? s with
    | none => simp
    | some m =>
      by_cases hi : inverseMissing sa sb s = true
      · simp [hi]
      · by_cases hr : (rc && !allEntries (inRange m) (win s (selBank sb) (k + 1))) = true
        · simp only [hi, hr]
          simp at hr
          simp [hr]
        · by_cases hf :
              allFit (matMul (win s (selBank sa) (k + 1)) (win s (selBank sb) (k + 1))) = true
          · have hi' : inverseMissing sa sb s = false := by simpa using hi
            have hr' : rc = true → allEntries (inRange m) (win s (selBank sb) (k + 1)) = true := by
              intro h; simpa [h] using hr
            simp [hi', hr, hf]
            exact ⟨fun e => ⟨hr', e.symm⟩, fun e => e.2.symm⟩
          · simp [hi, hr, hf]

/-- What a command that succeeds can change (43 R199): its result registers, INVV, and the windows of
the banks it writes; everything else is as before. -/
theorem resultOf_frame {i : Instr} {s u : State} (h : resultOf i s = .ok u) :
    u = { s with
      det := u.det, detmod := u.detmod, detinv := u.detinv, cofv := u.cofv, mem := u.mem,
      status := { s.status with invv := u.status.invv } } := by
  cases i with
  | det => obtain ⟨k, -, -, rfl⟩ := detResult_eq_ok.1 h; rfl
  | cof i j => obtain ⟨k, -, -, -, rfl⟩ := cofResult_eq_ok.1 h; rfl
  | adj => obtain ⟨k, -, -, -, rfl⟩ := adjResult_eq_ok.1 h; rfl
  | modinv => obtain ⟨m, x, -, -, rfl⟩ := modinvResult_eq_ok.1 h; rfl
  | minv => obtain ⟨k, m, di, -, -, -, -, -, rfl⟩ := minvResult_eq_ok.1 h; rfl
  | mmul sa sb rc => obtain ⟨k, m, -, -, -, -, -, rfl⟩ := mmulResult_eq_ok.1 h; rfl

end Sys2Proof.Machine
end

