-- ==== Sys2Proof/Laws/PerInstr.lean ====
section
/-! SUPPORT. The family OpcodeByte: the low byte of a command's word is its opcode (30 R90, R92). -/

namespace Sys2Proof.Laws.OpcodeByte

/-- The opcode field of the encoded command is the command's opcode, whatever its fields. -/
def Statement (i : Instr) : Prop := opField (encode i) = opcodeOf i

theorem det : Statement .det := by unfold Statement; decide

theorem cof (i j : Nat) : Statement (.cof i j) := by
  unfold Statement opField encode opcodeOf
  apply BitVec.eq_of_toNat_eq
  simp only [BitVec.extractLsb'_toNat, BitVec.toNat_ofNat, Nat.shiftRight_zero]
  change (2 + 256 * i + 4096 * j) % 4294967296 % 256 = 2
  omega

theorem adj : Statement .adj := by unfold Statement; decide

theorem modinv : Statement .modinv := by unfold Statement; decide

theorem minv : Statement .minv := by unfold Statement; decide

theorem mmul (sa sb : BankSel) (rc : Bool) : Statement (.mmul sa sb rc) := by
  unfold Statement
  cases sa <;> cases sb <;> cases rc <;> decide

end Sys2Proof.Laws.OpcodeByte
end

