-- ==== Sys2Proof/Laws/State.lean ====
section
/-! SUPPORT. One lemma per field for each named update of the state, so that no later proof unfolds a
record update; then the same for STATUS, and the reads of banks that an update leaves alone. -/

namespace Sys2Proof.Machine

/-! ### `succeed` -/

@[simp] theorem succeed_ctrl (s : State) :
    (succeed s).ctrl = s.ctrl := rfl
@[simp] theorem succeed_status (s : State) :
    (succeed s).status = s.status.succeeded := rfl
@[simp] theorem succeed_cmdLatch (s : State) :
    (succeed s).cmdLatch = s.cmdLatch := rfl
@[simp] theorem succeed_n (s : State) :
    (succeed s).n = s.n := rfl
@[simp] theorem succeed_m (s : State) :
    (succeed s).m = s.m := rfl
@[simp] theorem succeed_det (s : State) :
    (succeed s).det = s.det := rfl
@[simp] theorem succeed_detmod (s : State) :
    (succeed s).detmod = s.detmod := rfl
@[simp] theorem succeed_detinv (s : State) :
    (succeed s).detinv = s.detinv := rfl
@[simp] theorem succeed_cofv (s : State) :
    (succeed s).cofv = s.cofv := rfl
@[simp] theorem succeed_mem (s : State) :
    (succeed s).mem = s.mem := rfl
@[simp] theorem succeed_host (s : State) :
    (succeed s).host = s.host := rfl

/-! ### `raiseError` -/

@[simp] theorem raiseError_ctrl (e : ErrCode) (s : State) :
    (raiseError e s).ctrl = s.ctrl := rfl
@[simp] theorem raiseError_status (e : ErrCode) (s : State) :
    (raiseError e s).status = s.status.failed e := rfl
@[simp] theorem raiseError_cmdLatch (e : ErrCode) (s : State) :
    (raiseError e s).cmdLatch = s.cmdLatch := rfl
@[simp] theorem raiseError_n (e : ErrCode) (s : State) :
    (raiseError e s).n = s.n := rfl
@[simp] theorem raiseError_m (e : ErrCode) (s : State) :
    (raiseError e s).m = s.m := rfl
@[simp] theorem raiseError_det (e : ErrCode) (s : State) :
    (raiseError e s).det = s.det := rfl
@[simp] theorem raiseError_detmod (e : ErrCode) (s : State) :
    (raiseError e s).detmod = s.detmod := rfl
@[simp] theorem raiseError_detinv (e : ErrCode) (s : State) :
    (raiseError e s).detinv = s.detinv := rfl
@[simp] theorem raiseError_cofv (e : ErrCode) (s : State) :
    (raiseError e s).cofv = s.cofv := rfl
@[simp] theorem raiseError_mem (e : ErrCode) (s : State) :
    (raiseError e s).mem = s.mem := rfl
@[simp] theorem raiseError_host (e : ErrCode) (s : State) :
    (raiseError e s).host = s.host := rfl

/-! ### `issueCommand` -/

@[simp] theorem issueCommand_ctrl (w : Word) (s : State) :
    (issueCommand w s).ctrl = s.ctrl := rfl
@[simp] theorem issueCommand_status (w : Word) (s : State) :
    (issueCommand w s).status = s.status.issued := rfl
@[simp] theorem issueCommand_cmdLatch (w : Word) (s : State) :
    (issueCommand w s).cmdLatch = w.setWidth 32 := rfl
@[simp] theorem issueCommand_n (w : Word) (s : State) :
    (issueCommand w s).n = s.n := rfl
@[simp] theorem issueCommand_m (w : Word) (s : State) :
    (issueCommand w s).m = s.m := rfl
@[simp] theorem issueCommand_det (w : Word) (s : State) :
    (issueCommand w s).det = s.det := rfl
@[simp] theorem issueCommand_detmod (w : Word) (s : State) :
    (issueCommand w s).detmod = s.detmod := rfl
@[simp] theorem issueCommand_detinv (w : Word) (s : State) :
    (issueCommand w s).detinv = s.detinv := rfl
@[simp] theorem issueCommand_cofv (w : Word) (s : State) :
    (issueCommand w s).cofv = s.cofv := rfl
@[simp] theorem issueCommand_mem (w : Word) (s : State) :
    (issueCommand w s).mem = s.mem := rfl
@[simp] theorem issueCommand_host (w : Word) (s : State) :
    (issueCommand w s).host = s.host := rfl

/-! ### `resetEngine` -/

@[simp] theorem resetEngine_ctrl (s : State) :
    (resetEngine s).ctrl = State.reset.ctrl := rfl
@[simp] theorem resetEngine_status (s : State) :
    (resetEngine s).status = State.reset.status := rfl
@[simp] theorem resetEngine_cmdLatch (s : State) :
    (resetEngine s).cmdLatch = State.reset.cmdLatch := rfl
@[simp] theorem resetEngine_n (s : State) :
    (resetEngine s).n = State.reset.n := rfl
@[simp] theorem resetEngine_m (s : State) :
    (resetEngine s).m = State.reset.m := rfl
@[simp] theorem resetEngine_det (s : State) :
    (resetEngine s).det = State.reset.det := rfl
@[simp] theorem resetEngine_detmod (s : State) :
    (resetEngine s).detmod = State.reset.detmod := rfl
@[simp] theorem resetEngine_detinv (s : State) :
    (resetEngine s).detinv = State.reset.detinv := rfl
@[simp] theorem resetEngine_cofv (s : State) :
    (resetEngine s).cofv = State.reset.cofv := rfl
@[simp] theorem resetEngine_mem (s : State) :
    (resetEngine s).mem = State.reset.mem := rfl
@[simp] theorem resetEngine_host (s : State) :
    (resetEngine s).host = s.host := rfl

/-! ### `nextOp` -/

@[simp] theorem nextOp_ctrl (s : State) :
    (nextOp s).ctrl = s.ctrl := rfl
@[simp] theorem nextOp_status (s : State) :
    (nextOp s).status = s.status := rfl
@[simp] theorem nextOp_cmdLatch (s : State) :
    (nextOp s).cmdLatch = s.cmdLatch := rfl
@[simp] theorem nextOp_n (s : State) :
    (nextOp s).n = s.n := rfl
@[simp] theorem nextOp_m (s : State) :
    (nextOp s).m = s.m := rfl
@[simp] theorem nextOp_det (s : State) :
    (nextOp s).det = s.det := rfl
@[simp] theorem nextOp_detmod (s : State) :
    (nextOp s).detmod = s.detmod := rfl
@[simp] theorem nextOp_detinv (s : State) :
    (nextOp s).detinv = s.detinv := rfl
@[simp] theorem nextOp_cofv (s : State) :
    (nextOp s).cofv = s.cofv := rfl
@[simp] theorem nextOp_mem (s : State) :
    (nextOp s).mem = s.mem := rfl
@[simp] theorem nextOp_host (s : State) :
    (nextOp s).host = { s.host with script := s.host.script.drop 1 } := rfl

/-! ### `observe` -/

@[simp] theorem observe_ctrl (a : Addr) (s : State) :
    (observe a s).ctrl = s.ctrl := rfl
@[simp] theorem observe_status (a : Addr) (s : State) :
    (observe a s).status = s.status := rfl
@[simp] theorem observe_cmdLatch (a : Addr) (s : State) :
    (observe a s).cmdLatch = s.cmdLatch := rfl
@[simp] theorem observe_n (a : Addr) (s : State) :
    (observe a s).n = s.n := rfl
@[simp] theorem observe_m (a : Addr) (s : State) :
    (observe a s).m = s.m := rfl
@[simp] theorem observe_det (a : Addr) (s : State) :
    (observe a s).det = s.det := rfl
@[simp] theorem observe_detmod (a : Addr) (s : State) :
    (observe a s).detmod = s.detmod := rfl
@[simp] theorem observe_detinv (a : Addr) (s : State) :
    (observe a s).detinv = s.detinv := rfl
@[simp] theorem observe_cofv (a : Addr) (s : State) :
    (observe a s).cofv = s.cofv := rfl
@[simp] theorem observe_mem (a : Addr) (s : State) :
    (observe a s).mem = s.mem := rfl

/-! ### `observeBytes` -/

@[simp] theorem observeBytes_ctrl (b : Nat) (a : Addr) (s : State) :
    (observeBytes b a s).ctrl = s.ctrl := rfl
@[simp] theorem observeBytes_status (b : Nat) (a : Addr) (s : State) :
    (observeBytes b a s).status = s.status := rfl
@[simp] theorem observeBytes_cmdLatch (b : Nat) (a : Addr) (s : State) :
    (observeBytes b a s).cmdLatch = s.cmdLatch := rfl
@[simp] theorem observeBytes_n (b : Nat) (a : Addr) (s : State) :
    (observeBytes b a s).n = s.n := rfl
@[simp] theorem observeBytes_m (b : Nat) (a : Addr) (s : State) :
    (observeBytes b a s).m = s.m := rfl
@[simp] theorem observeBytes_det (b : Nat) (a : Addr) (s : State) :
    (observeBytes b a s).det = s.det := rfl
@[simp] theorem observeBytes_detmod (b : Nat) (a : Addr) (s : State) :
    (observeBytes b a s).detmod = s.detmod := rfl
@[simp] theorem observeBytes_detinv (b : Nat) (a : Addr) (s : State) :
    (observeBytes b a s).detinv = s.detinv := rfl
@[simp] theorem observeBytes_cofv (b : Nat) (a : Addr) (s : State) :
    (observeBytes b a s).cofv = s.cofv := rfl
@[simp] theorem observeBytes_mem (b : Nat) (a : Addr) (s : State) :
    (observeBytes b a s).mem = s.mem := rfl
@[simp] theorem observeBytes_host (b : Nat) (a : Addr) (s : State) :
    (observeBytes b a s).host = { (observe a s).host with
      busReads := (b, bytesOfWord (portRead s a)) :: s.host.busReads } := rfl

/-! ### `takeTurn` -/

@[simp] theorem takeTurn_ctrl (s : State) :
    (takeTurn s).ctrl = s.ctrl := by
  unfold takeTurn; split <;> rfl
@[simp] theorem takeTurn_status (s : State) :
    (takeTurn s).status = s.status := by
  unfold takeTurn; split <;> rfl
@[simp] theorem takeTurn_cmdLatch (s : State) :
    (takeTurn s).cmdLatch = s.cmdLatch := by
  unfold takeTurn; split <;> rfl
@[simp] theorem takeTurn_n (s : State) :
    (takeTurn s).n = s.n := by
  unfold takeTurn; split <;> rfl
@[simp] theorem takeTurn_m (s : State) :
    (takeTurn s).m = s.m := by
  unfold takeTurn; split <;> rfl
@[simp] theorem takeTurn_det (s : State) :
    (takeTurn s).det = s.det := by
  unfold takeTurn; split <;> rfl
@[simp] theorem takeTurn_detmod (s : State) :
    (takeTurn s).detmod = s.detmod := by
  unfold takeTurn; split <;> rfl
@[simp] theorem takeTurn_detinv (s : State) :
    (takeTurn s).detinv = s.detinv := by
  unfold takeTurn; split <;> rfl
@[simp] theorem takeTurn_cofv (s : State) :
    (takeTurn s).cofv = s.cofv := by
  unfold takeTurn; split <;> rfl
@[simp] theorem takeTurn_mem (s : State) :
    (takeTurn s).mem = s.mem := by
  unfold takeTurn; split <;> rfl

/-! ### `inFlight` -/

@[simp] theorem inFlight_ctrl (c : CmdWord) (s : State) :
    (inFlight c s).ctrl = s.ctrl := rfl
@[simp] theorem inFlight_status (c : CmdWord) (s : State) :
    (inFlight c s).status = s.status.issued := rfl
@[simp] theorem inFlight_cmdLatch (c : CmdWord) (s : State) :
    (inFlight c s).cmdLatch = c := rfl
@[simp] theorem inFlight_n (c : CmdWord) (s : State) :
    (inFlight c s).n = s.n := rfl
@[simp] theorem inFlight_m (c : CmdWord) (s : State) :
    (inFlight c s).m = s.m := rfl
@[simp] theorem inFlight_det (c : CmdWord) (s : State) :
    (inFlight c s).det = s.det := rfl
@[simp] theorem inFlight_detmod (c : CmdWord) (s : State) :
    (inFlight c s).detmod = s.detmod := rfl
@[simp] theorem inFlight_detinv (c : CmdWord) (s : State) :
    (inFlight c s).detinv = s.detinv := rfl
@[simp] theorem inFlight_cofv (c : CmdWord) (s : State) :
    (inFlight c s).cofv = s.cofv := rfl
@[simp] theorem inFlight_mem (c : CmdWord) (s : State) :
    (inFlight c s).mem = s.mem := rfl
@[simp] theorem inFlight_host (c : CmdWord) (s : State) :
    (inFlight c s).host = { s.host with turns := .engine :: s.host.turns } := rfl

/-- The script and the observations are not touched by a turn of the schedule. -/
theorem takeTurn_host (s : State) :
    (takeTurn s).host =
      if s.status.busy then { s.host with turns := s.host.turns.drop 1 } else s.host := by
  unfold takeTurn; split <;> rfl
@[simp] theorem takeTurn_script (s : State) : (takeTurn s).host.script = s.host.script := by
  unfold takeTurn; split <;> rfl
@[simp] theorem takeTurn_reads (s : State) : (takeTurn s).host.reads = s.host.reads := by
  unfold takeTurn; split <;> rfl
@[simp] theorem takeTurn_draws (s : State) : (takeTurn s).host.draws = s.host.draws := by
  unfold takeTurn; split <;> rfl
@[simp] theorem observe_script (a : Addr) (s : State) :
    (observe a s).host.script = s.host.script := rfl
@[simp] theorem observe_turns (a : Addr) (s : State) :
    (observe a s).host.turns = s.host.turns := rfl
@[simp] theorem takeTurn_busReads (s : State) : (takeTurn s).host.busReads = s.host.busReads := by
  unfold takeTurn; split <;> rfl
@[simp] theorem observe_busReads (a : Addr) (s : State) :
    (observe a s).host.busReads = s.host.busReads := rfl
@[simp] theorem observe_reads (a : Addr) (s : State) :
    (observe a s).host.reads = (a, portRead s a) :: s.host.reads := rfl

/-! ### `Status.issued` -/

@[simp] theorem Status.issued_busy (st : Status) :
    st.issued.busy = true := rfl
@[simp] theorem Status.issued_done (st : Status) :
    st.issued.done = false := rfl
@[simp] theorem Status.issued_err (st : Status) :
    st.issued.err = false := rfl
@[simp] theorem Status.issued_invv (st : Status) :
    st.issued.invv = st.invv := rfl
@[simp] theorem Status.issued_wdrop (st : Status) :
    st.issued.wdrop = st.wdrop := rfl
@[simp] theorem Status.issued_errcode (st : Status) :
    st.issued.errcode = 0 := rfl

/-! ### `Status.succeeded` -/

@[simp] theorem Status.succeeded_busy (st : Status) :
    st.succeeded.busy = false := rfl
@[simp] theorem Status.succeeded_done (st : Status) :
    st.succeeded.done = true := rfl
@[simp] theorem Status.succeeded_err (st : Status) :
    st.succeeded.err = false := rfl
@[simp] theorem Status.succeeded_invv (st : Status) :
    st.succeeded.invv = st.invv := rfl
@[simp] theorem Status.succeeded_wdrop (st : Status) :
    st.succeeded.wdrop = st.wdrop := rfl
@[simp] theorem Status.succeeded_errcode (st : Status) :
    st.succeeded.errcode = 0 := rfl

/-! ### `Status.failed` -/

@[simp] theorem Status.failed_busy (st : Status) (e : ErrCode) :
    (st.failed e).busy = false := rfl
@[simp] theorem Status.failed_done (st : Status) (e : ErrCode) :
    (st.failed e).done = true := rfl
@[simp] theorem Status.failed_err (st : Status) (e : ErrCode) :
    (st.failed e).err = true := rfl
@[simp] theorem Status.failed_invv (st : Status) (e : ErrCode) :
    (st.failed e).invv = st.invv := rfl
@[simp] theorem Status.failed_wdrop (st : Status) (e : ErrCode) :
    (st.failed e).wdrop = st.wdrop := rfl
@[simp] theorem Status.failed_errcode (st : Status) (e : ErrCode) :
    (st.failed e).errcode = e.num := rfl

/-! ### `Status.dropped` -/

@[simp] theorem Status.dropped_busy (st : Status) :
    st.dropped.busy = st.busy := rfl
@[simp] theorem Status.dropped_done (st : Status) :
    st.dropped.done = st.done := rfl
@[simp] theorem Status.dropped_err (st : Status) :
    st.dropped.err = st.err := rfl
@[simp] theorem Status.dropped_invv (st : Status) :
    st.dropped.invv = st.invv := rfl
@[simp] theorem Status.dropped_wdrop (st : Status) :
    st.dropped.wdrop = true := rfl
@[simp] theorem Status.dropped_errcode (st : Status) :
    st.dropped.errcode = st.errcode := rfl

/-! ### `Status.inverseValid` -/

@[simp] theorem Status.inverseValid_busy (st : Status) :
    st.inverseValid.busy = st.busy := rfl
@[simp] theorem Status.inverseValid_done (st : Status) :
    st.inverseValid.done = st.done := rfl
@[simp] theorem Status.inverseValid_err (st : Status) :
    st.inverseValid.err = st.err := rfl
@[simp] theorem Status.inverseValid_invv (st : Status) :
    st.inverseValid.invv = true := rfl
@[simp] theorem Status.inverseValid_wdrop (st : Status) :
    st.inverseValid.wdrop = st.wdrop := rfl
@[simp] theorem Status.inverseValid_errcode (st : Status) :
    st.inverseValid.errcode = st.errcode := rfl

/-! ### `Status.inverseStale` -/

@[simp] theorem Status.inverseStale_busy (st : Status) :
    st.inverseStale.busy = st.busy := rfl
@[simp] theorem Status.inverseStale_done (st : Status) :
    st.inverseStale.done = st.done := rfl
@[simp] theorem Status.inverseStale_err (st : Status) :
    st.inverseStale.err = st.err := rfl
@[simp] theorem Status.inverseStale_invv (st : Status) :
    st.inverseStale.invv = false := rfl
@[simp] theorem Status.inverseStale_wdrop (st : Status) :
    st.inverseStale.wdrop = st.wdrop := rfl
@[simp] theorem Status.inverseStale_errcode (st : Status) :
    st.inverseStale.errcode = st.errcode := rfl

/-! ### `Status.hostWrite` -/

@[simp] theorem Status.hostWrite_busy (st : Status) (w : Word) :
    (st.hostWrite w).busy = st.busy := rfl
@[simp] theorem Status.hostWrite_done (st : Status) (w : Word) :
    (st.hostWrite w).done = (st.done && !w.getLsbD 1) := rfl
@[simp] theorem Status.hostWrite_err (st : Status) (w : Word) :
    (st.hostWrite w).err = st.err := rfl
@[simp] theorem Status.hostWrite_invv (st : Status) (w : Word) :
    (st.hostWrite w).invv = st.invv := rfl
@[simp] theorem Status.hostWrite_wdrop (st : Status) (w : Word) :
    (st.hostWrite w).wdrop = (st.wdrop && !w.getLsbD 4) := rfl
@[simp] theorem Status.hostWrite_errcode (st : Status) (w : Word) :
    (st.hostWrite w).errcode = st.errcode := rfl

/-! ### Reads of the banks depend on `mem` alone -/

theorem entry_eq_of_mem {s t : State} (h : t.mem = s.mem) (b : Bank) (i j : Nat) :
    t.entry b i j = s.entry b i j := by rw [State.entry, State.entry, h]

theorem win_eq_of_mem {s t : State} (h : t.mem = s.mem) (b : Bank) (k : Nat) :
    win t b k = win s b k := by
  funext i j; rw [win, win, entry_eq_of_mem h]

end Sys2Proof.Machine
end

