-- ==== Sys2Proof/Laws/Step.lean ====
section
/-! SUPPORT. What a host access and a step can do: one inversion lemma each, cited instead of unfolding
them. -/

namespace Sys2Proof.Machine

/-- A write to frozen state: dropped while busy, accepted while idle (10 R46). -/
theorem frozenWrite_busy {s t : State} (h : s.status.busy = true) :
    frozenWrite s t = { s with status := s.status.dropped } := by simp [frozenWrite, h]

theorem frozenWrite_idle {s t : State} (h : s.status.busy = false) : frozenWrite s t = t := by
  simp [frozenWrite, h]

/-- Everything a host write can do while BUSY = 1: nothing, a dropped write, CTRL, or the clearing of
STATUS flags. -/
theorem portWrite_cases_busy {s : State} (a : Addr) (w : Word) (h : s.status.busy = true) :
    portWrite s a w = s ∨ portWrite s a w = { s with status := s.status.dropped } ∨
    portWrite s a w = { s with ctrl := ctrlWord w } ∨
    portWrite s a w = { s with status := s.status.hostWrite w } := by
  unfold portWrite
  generalize addrTarget a = x
  cases x with
  | reg r => cases r <;> simp [writeReg, frozenWrite_busy h]
  | entry b i j => cases b <;> simp [writeEntry, frozenWrite_busy h]
  | reserved => simp

/-- Everything a host write can do while BUSY = 0. -/
theorem portWrite_cases_idle {s : State} (a : Addr) (w : Word) (h : s.status.busy = false) :
    portWrite s a w = s ∨
    portWrite s a w = { s with ctrl := ctrlWord w } ∨
    portWrite s a w = { s with status := s.status.hostWrite w } ∨
    portWrite s a w = issueCommand w s ∨
    portWrite s a w = { s with n := w, status := s.status.inverseStale } ∨
    portWrite s a w = { s with m := w, status := s.status.inverseStale } ∨
    portWrite s a w = { s with det := w } ∨
    (∃ i j, i < 10 ∧ j < 10 ∧ portWrite s a w =
      { s with mem := memWrite s.mem (entryAddr .A i j) w, status := s.status.inverseStale }) ∨
    (∃ i j, i < 10 ∧ j < 10 ∧ portWrite s a w =
      { s with mem := memWrite s.mem (entryAddr .B i j) w }) := by
  rcases addrTarget_cases a with ⟨r, -, hr⟩ | ⟨b, i, j, hi, hj, -, hb⟩ | ⟨-, -, hz⟩
  · unfold portWrite
    rw [hr]
    cases r <;> simp [writeReg, frozenWrite_idle h]
  · unfold portWrite
    rw [hb]
    cases b
    · simp only [writeEntry, frozenWrite_idle h]
      refine Or.inr (Or.inr (Or.inr (Or.inr (Or.inr (Or.inr (Or.inr (Or.inl ⟨i, j, hi, hj, rfl⟩)))))))
    · simp only [writeEntry, frozenWrite_idle h]
      refine Or.inr (Or.inr (Or.inr (Or.inr (Or.inr (Or.inr (Or.inr (Or.inr ⟨i, j, hi, hj, rfl⟩)))))))
    all_goals simp [writeEntry]
  · unfold portWrite
    rw [hz]
    simp

/-- A host write leaves the host's side alone. -/
@[simp] theorem portWrite_host (s : State) (a : Addr) (w : Word) :
    (portWrite s a w).host = s.host := by
  cases h : s.status.busy
  · rcases portWrite_cases_idle a w h with e | e | e | e | e | e | e | ⟨i, j, -, -, e⟩ | ⟨i, j, -, -, e⟩ <;>
      simp [e]
  · rcases portWrite_cases_busy a w h with e | e | e | e <;> rw [e]

/-- Everything one operation of the host can do. -/
theorem runOp_cases {op : HostOp} {s t : State} (h : runOp op s = .next t) :
    (∃ a, t = nextOp (observe a s)) ∨ (∃ b a, t = nextOp (observeBytes b a s)) ∨ (∃ a w, t = nextOp (portWrite s a w)) ∨
    t = observe (regAddr .STATUS) s ∨ (op = .reset ∧ t = nextOp (resetEngine s)) := by
  cases op with
  | read a => exact Or.inl ⟨a, (Host.Outcome.next.inj h).symm⟩
  | write a w => exact Or.inr (Or.inr (Or.inl ⟨a, w, (Host.Outcome.next.inj h).symm⟩))
  | wait =>
    have e := (Host.Outcome.next.inj h).symm
    unfold waitStep at e
    split at e
    · exact Or.inr (Or.inr (Or.inr (Or.inl e)))
    · exact Or.inl ⟨_, e⟩
  | busRead ba sz =>
    simp only [runOp] at h
    split at h
    · next a _ => exact Or.inr (Or.inl ⟨ba, a, (Host.Outcome.next.inj h).symm⟩)
    · exact nomatch h
  | busWrite ba d =>
    simp only [runOp] at h
    split at h
    · next a _ => exact Or.inr (Or.inr (Or.inl ⟨a, _, (Host.Outcome.next.inj h).symm⟩))
    · exact nomatch h
  | reset => exact Or.inr (Or.inr (Or.inr (Or.inr ⟨rfl, (Host.Outcome.next.inj h).symm⟩)))

/-- Everything a step can do: the completion of a command, an idle host, or one operation of the
host. -/
theorem step_cases {s t : State} (h : step s = .next t) :
    (mover s = .engine ∧ engineStep (takeTurn s) = .next t) ∨
    (mover s = .host ∧ s.host.script = [] ∧ t = takeTurn s) ∨
    (mover s = .host ∧ ∃ op rest, s.host.script = op :: rest ∧ runOp op (takeTurn s) = .next t) := by
  unfold step at h
  split at h
  · next hm => exact Or.inl ⟨hm, h⟩
  · next hm =>
    right
    unfold hostStep at h
    rw [takeTurn_script] at h
    split at h
    · next hs => exact Or.inl ⟨hm, hs, (Host.Outcome.next.inj h).symm⟩
    · next op rest hs => exact Or.inr ⟨hm, op, rest, hs, h⟩

/-- The engine moves only while BUSY = 1. -/
theorem busy_of_mover_engine {s : State} (h : mover s = .engine) : s.status.busy = true := by
  unfold mover at h
  split at h
  · assumption
  · exact nomatch h

/-- The completion of the word in flight: E_ILLEGAL, or the completion of the command it decodes to. -/
theorem engineStep_cases {s t : State} (h : engineStep s = .next t) :
    ((∃ r, decode s.cmdLatch = .error r) ∧ t = raiseError .illegal s) ∨
    (∃ i, decode s.cmdLatch = .ok i ∧
      ((∃ u, resultOf i s = .ok u ∧ t = succeed u) ∨
       (∃ e, resultOf i s = .error e ∧ t = raiseError e s))) := by
  unfold engineStep at h
  split at h
  · next i hi =>
    rw [exec_eq_complete] at h
    exact Or.inr ⟨i, hi, complete_eq_next.1 h⟩
  · next r hr => exact Or.inl ⟨⟨r, hr⟩, (Host.Outcome.next.inj h).symm⟩

end Sys2Proof.Machine
end

