-- ==== Sys2Proof/Tests/Slice0.lean ====
section
/-! SUPPORT. Tests, each expected value taken from 95_test_vectors.md (its id in the comment), and one
witness for every statement that has hypotheses: a concrete state that meets them together. -/

namespace Sys2Proof.Machine.Tests

/-! ### Small states -/

/-- The cells of a matrix written out by rows. -/
def cellsOf (b : Bank) (rows : List (List Int)) : List (Nat × Word) :=
  rows.zipIdx.flatMap fun r => r.1.zipIdx.map fun v => (entryAddr b r.2 v.2, toW v.1)

/-- The reset state with a dimension, a modulus and matrices in A and B. -/
def loaded (n m : Int) (a b : List (List Int)) : State :=
  { State.reset with n := toW n, m := toW m, mem := memWriteAll [] (cellsOf .A a ++ cellsOf .B b) }

/-- The state with a command word in flight. -/
def flying (c : CmdWord) (s : State) : State := { s with cmdLatch := c, status := s.status.issued }

/-- The state with a script to run. -/
def scripted (ops : List HostOp) (s : State) : State :=
  { s with host := { s.host with script := ops } }

/-- The state with a schedule. -/
def scheduled (turns : List Agent) (s : State) : State :=
  { s with host := { s.host with turns := turns } }

/-- The state a step or a command answers, if it answers one. -/
def nextOf : Outcome → Option State
  | .next t => some t
  | .fault _ => none
  | .refused _ => none

/-- The window of a bank as rows. -/
def rowsOf (t : State) (b : Bank) (n : Nat) : List (List Int) :=
  (List.range n).map fun i => (List.range n).map fun j => toS (t.entry b i j)

/-- The keys of 95: V4.2 (invertible mod 28), the singular one of V2.4, and V2.6. -/
def key2 : List (List Int) := [[3, 2], [5, 7]]
def singular2 : List (List Int) := [[2, 4], [4, 8]]
def key3 : List (List Int) := [[6, 24, 1], [13, 16, 10], [20, 17, 15]]

/-! ### WellFormed: ill-formed terms are refused -/

theorem test_wf_refuses_row_index_16 : (Instr.cof 16 0).wf = false := by decide
theorem test_wf_refuses_column_index_16 : (Instr.cof 0 16).wf = false := by decide
theorem test_wf_accepts_the_rest : [Instr.det, .cof 15 15, .adj, .modinv, .minv,
    .mmul .INV .INV true].all Instr.wf = true := by decide

/-! ### Decoding: words of 95 §2.1, written out from 30 R94 to R96 -/

theorem test_decode_det : decode 0b00000000000000000000000000000001 = .ok .det := by decide
theorem test_decode_cof_row : decode 0b00000000000000000000000100000010 = .ok (.cof 1 0) := by decide
theorem test_decode_cof_column :
    decode 0b00000000000000000001000000000010 = .ok (.cof 0 1) := by decide
theorem test_decode_adj : decode 0b00000000000000000000000000000011 = .ok .adj := by decide
theorem test_decode_modinv : decode 0b00000000000000000000000000000100 = .ok .modinv := by decide
theorem test_decode_minv : decode 0b00000000000000000000000000000101 = .ok .minv := by decide
theorem test_decode_mmul_dec :
    decode 0b00000000000000000000101100001000 = .ok (.mmul .INV .C false) := by decide
theorem test_decode_mmul_decb :
    decode 0b00000000000000000001011100001000 = .ok (.mmul .INV .B true) := by decide
theorem test_decode_illegal : decode 0x00000101 = .error .zeroBits ∧
    decode 0x00010002 = .error .zeroBits ∧ decode 0x00002008 = .error .zeroBits ∧
    decode 0x00000000 = .error .opcode ∧ decode 0x00000006 = .error .opcode ∧
    decode 0x00000007 = .error .opcode ∧ decode 0x00000009 = .error .opcode ∧
    decode 0x000000FF = .error .opcode ∧ decode 0xFFFFFFFF = .error .opcode := by decide
theorem test_decodeTableWord : decodeTableWord 32 0xFF02 = some (.cof 15 15) ∧
    decodeTableWord 32 0x2008 = none := by decide

/-! ### One step of each command -/

/-- V2.6. -/
theorem test_det : (nextOf (exec .det (loaded 3 28 key3 []))).map
    (fun t => (t.det, t.status.word)) = some (441, 0x002) := by decide

/-- V2.22: the value 2^63 does not fit. -/
theorem test_det_overflow :
    (nextOf (exec .det (loaded 2 28 [[4611686018427387904, 0], [0, 2]] []))).map
      (fun t => (t.det, t.status.word)) = some (0, 0x706) := by decide

/-- V3.4: the row index comes first. -/
theorem test_cof : (nextOf (exec (.cof 1 0) (loaded 3 28 key3 []))).map
    (fun t => (t.cofv, t.status.word)) = some (0xFFFFFFFFFFFFFEA9, 0x002) := by decide

/-- V3.11. -/
theorem test_cof_shape : (nextOf (exec (.cof 0 3) (loaded 3 28 key3 []))).map
    (fun t => (t.cofv, t.status.word)) = some (0, 0x206) := by decide

/-- V4.4: transposed placement. -/
theorem test_adj : (nextOf (exec .adj (loaded 3 28 key3 []))).map
    (fun t => (t.det, rowsOf t .ADJ 3)) =
      some (441, [[70, -343, 224], [5, 70, -47], [-99, 378, -216]]) := by decide

/-- V4.9: only the determinant does not fit. -/
theorem test_adj_overflow :
    (nextOf (exec .adj (loaded 2 28 [[4611686018427387904, 0], [0, 2]] []))).map
      (fun t => (t.det, rowsOf t .ADJ 2, t.status.word)) =
        some (0, [[0, 0], [0, 0]], 0x706) := by decide

/-- V5a.4: a negative DET. -/
theorem test_modinv : (nextOf (exec .modinv { loaded 0 28 [] [] with det := toW (-3) })).map
    (fun t => (t.detmod, t.detinv, t.status.word)) = some (25, 9, 0x002) := by decide

/-- V5a.2. -/
theorem test_modinv_not_invertible :
    (nextOf (exec .modinv { loaded 0 28 [] [] with det := 441 })).map
      (fun t => (t.detmod, t.detinv, t.status.word)) = some (0, 0, 0x606) := by decide

/-- V5.2. -/
theorem test_minv : (nextOf (exec .minv (loaded 2 28 key2 []))).map
    (fun t => (t.detinv, rowsOf t .ADJ 2, rowsOf t .INV 2, t.status.word)) =
      some (23, [[7, -2], [-5, 3]], [[21, 10], [25, 13]], 0x00A) := by decide

/-- V5.8. -/
theorem test_minv_singular : (nextOf (exec .minv (loaded 2 28 singular2 []))).map
    (fun t => (t.det, rowsOf t .INV 2, t.status.word)) =
      some (0, [[0, 0], [0, 0]], 0x606) := by decide

/-- V6.1. -/
theorem test_mmul :
    (nextOf (exec (.mmul .A .B false)
      (loaded 3 28 key3 [[0, 2, 19], [27, 27, 27], [27, 27, 27]]))).map
      (fun t => (rowsOf t .P 3, rowsOf t .C 3, t.status.word)) =
        some ([[675, 687, 789], [702, 728, 949], [864, 904, 1244]],
          [[3, 15, 5], [2, 0, 25], [24, 8, 12]], 0x002) := by decide

/-- V6.6: 28 is not below 28. -/
theorem test_mmul_range :
    (nextOf (exec (.mmul .A .B true) (loaded 2 28 [[1, 2], [3, 4]] [[0, 27], [28, 1]]))).map
      (fun t => (rowsOf t .P 2, t.status.word)) = some ([[0, 0], [0, 0]], 0x506) := by decide

/-! ### Steps -/

/-- From reset the placed command runs at once: V2.25, N = 0. -/
theorem test_step_runs_the_placed_command :
    (nextOf (step (State.reset.withFetchWord 32 0x1))).map (fun t => t.status.word) =
      some 0x206 := by decide

/-- An illegal word completes with E_ILLEGAL (95 §2.1). -/
theorem test_step_illegal :
    (nextOf (step (State.reset.withFetchWord 32 0x101))).map (fun t => t.status.word) =
      some 0x106 := by decide

/-- V7.1: RD CFG and RD M from reset. -/
theorem test_read_reset : portRead State.reset 0x001 = 0x10400A ∧ portRead State.reset 0x006 = 28 := by
  decide

/-- V7.4. -/
theorem test_write_ctrl :
    portRead (portWrite State.reset 0x002 0xFFFFFFFFFFFFFFFF) 0x002 = 1 := by decide

/-- V7.6: a write to A[9][9] clears INVV; V7.5: a write to B does not. -/
theorem test_invv_cleared_by_a_key_write :
    (portWrite { State.reset with status := Status.reset.inverseValid } 0x199 0).status.invv = false ∧
    (portWrite { State.reset with status := Status.reset.inverseValid } 0x200 4).status.invv = true := by
  decide

/-- V7.9: a write of N while busy is dropped. -/
theorem test_busy_write_dropped :
    (portWrite (flying 5 State.reset) 0x005 3).n = 0 ∧
    (portWrite (flying 5 State.reset) 0x005 3).status.wdrop = true := by decide

/-- V7.14: only DONE and WDROP are cleared by a write to STATUS. -/
theorem test_status_write :
    (portWrite { State.reset with status := { Status.reset with done := true, err := true, errcode := 6 } }
      0x003 0xFFFFFFFFFFFFFFFF).status.word = 0x604 := by decide

/-- 20 R63 by hand: ID = 0x53414543 read through a wrapper, the byte at the lowest address first. -/
theorem test_bus_read_bytes :
    (nextOf (step (scripted [.busRead 0 8] State.reset))).map (fun t => t.host.busReads) =
      some [(0, [0x43, 0x45, 0x41, 0x53, 0, 0, 0, 0])] := by decide

/-- 20 R63 by hand: the first byte written is bits [7:0] of M. -/
theorem test_bus_write_bytes :
    (nextOf (step (scripted [.busWrite 0x30 [0x1A, 0x02, 0, 0, 0, 0, 0, 0]] State.reset))).map
      (fun t => t.m) = some 0x21A := by decide

/-! ### Witnesses: states that meet the hypotheses of the statements -/

/-- A busy state whose host moves next. -/
def busyHost (ops : List HostOp) : State :=
  scripted ops (scheduled [.host] (flying 5 (loaded 2 28 key2 singular2)))

/-- A busy state whose engine moves next, its schedule exhausted. -/
def busyEngine (c : CmdWord) : State := flying c (loaded 2 28 key2 singular2)

theorem busyHost_moves (ops : List HostOp) : hostMoves (busyHost ops) := Or.inr rfl
theorem busyEngine_moves (c : CmdWord) : engineMoves (busyEngine c) := ⟨rfl, rfl⟩

/-- An idle state with a script. -/
def idleHost (ops : List HostOp) : State := scripted ops (loaded 2 28 key2 singular2)

theorem idleHost_moves (ops : List HostOp) : hostMoves (idleHost ops) := Or.inl rfl

theorem witness_DecodeAndEncodeAgree :
    (15 ≤ 15) ∧ (Instr.cof 15 15).wf = true ∧ decode 0xFF02 = .ok (.cof 15 15) := by decide

/-- One word for each of the four clauses of an illegal word. -/
theorem witness_IllegalWordsFail :
    engineMoves (busyEngine 0x2008) ∧ (∀ i, decode (busyEngine 0x2008).cmdLatch ≠ .ok i) ∧
    (0x06 % 256 ∉ [0x01, 0x02, 0x03, 0x04, 0x05, 0x08]) ∧
    (0x101 % 256 ∈ [0x01, 0x03, 0x04, 0x05] ∧ 0x101 / 2 ^ 8 ≠ 0) ∧
    (0x10002 % 256 = 0x02 ∧ 0x10002 / 2 ^ 16 ≠ 0) ∧
    (0x2008 % 256 = 0x08 ∧ 0x2008 / 2 ^ 13 ≠ 0) := by
  refine ⟨busyEngine_moves _, ?_, by decide, by decide, by decide, by decide⟩
  have h : decode (busyEngine 0x2008).cmdLatch = .error .zeroBits := by decide
  intro i; rw [h]; exact nofun

theorem witness_LoadMatrixWritesEveryEntry :
    HostOp.write 0x111 8 ∈ lineOps (.ldm .A singular2) ∧
    singular2[1]? = some [4, 8] ∧ [4, 8][1]? = some 8 := by decide

theorem witness_StepCompletesTheCommandInFlight :
    engineMoves (busyEngine 5) ∧ decode (busyEngine 5).cmdLatch = .ok .minv :=
  ⟨busyEngine_moves _, by decide⟩

/-- Each kind of operation, at an idle and at a busy port. -/
theorem witness_StepRunsTheHostOperation :
    (hostMoves (busyHost [.read 7]) ∧ (busyHost [.read 7]).host.script = [.read 7]) ∧
    (hostMoves (idleHost [.write 7 1]) ∧ (idleHost [.write 7 1]).host.script = [.write 7 1]) ∧
    (hostMoves (idleHost [.wait]) ∧ (idleHost [.wait]).status.busy = false) ∧
    (hostMoves (busyHost [.wait]) ∧ (busyHost [.wait]).status.busy = true) ∧
    (hostMoves (busyHost [.reset]) ∧ (busyHost [.reset]).host.script = [.reset]) :=
  ⟨⟨Or.inr rfl, rfl⟩, ⟨Or.inl rfl, rfl⟩, ⟨Or.inl rfl, rfl⟩, ⟨Or.inr rfl, rfl⟩, ⟨Or.inr rfl, rfl⟩⟩

theorem witness_IdleMachineWaits :
    (idleHost []).status.busy = false ∧ (idleHost []).host.script = [] := ⟨rfl, rfl⟩

/-- Port accesses and bus accesses at the edges of what a wrapper passes. -/
theorem witness_CompletionAlwaysComes :
    (busyHost [.read 7, .write 5 3, .wait, .busRead 0x3FF8 8,
      .busWrite 0 [0, 0, 0, 0, 0, 0, 0, 0]]).status.busy = true ∧
    ∀ op ∈ (busyHost [.read 7, .write 5 3, .wait, .busRead 0x3FF8 8,
      .busWrite 0 [0, 0, 0, 0, 0, 0, 0, 0]]).host.script, portOp op = true :=
  ⟨rfl, by decide⟩

/-- Bits 5, 7, 12 and 63 are reserved, 4, 8 and 11 are not. -/
theorem witness_StatusWordLayout :
    (5 ≤ 5 ∧ 5 ≤ 7 ∨ 12 ≤ 5) ∧ (5 ≤ 7 ∧ 7 ≤ 7 ∨ 12 ≤ 7) ∧ (5 ≤ 12 ∧ 12 ≤ 7 ∨ 12 ≤ 12) ∧
    ¬ (5 ≤ 4 ∧ 4 ≤ 7 ∨ 12 ≤ 4) ∧ ¬ (5 ≤ 8 ∧ 8 ≤ 7 ∨ 12 ≤ 8) ∧ ¬ (5 ≤ 11 ∧ 11 ≤ 7 ∨ 12 ≤ 11) := by decide

theorem witness_EntryAddresses : 9 < 10 ∧ entryAddr .P 9 9 = entryAddr .P 9 9 := by decide

/-- The edges of the reserved addresses (10 R39); no address of a register or an implemented entry is
one. -/
theorem test_reserved_edges :
    (∀ a ∈ [0x00B, 0x0FF, 0x10A, 0x19A, 0x1A0, 0x2FF, 0x6FF, 0x700, 0x7FF],
      reservedAddr (BitVec.ofNat 11 a)) ∧
    ∀ a ∈ [0x000, 0x00A, 0x100, 0x109, 0x190, 0x199, 0x200, 0x299, 0x300, 0x600, 0x699],
      ¬ reservedAddr (BitVec.ofNat 11 a) := by unfold reservedAddr; decide

/-- A read at the first and the last register, at an operand and a result entry, at both sides of the
reserved ranges, idle and busy. -/
theorem witness_HostReadTable :
    (∀ a : Addr, hostMoves (idleHost [.read a]) ∧ (idleHost [.read a]).host.script = [.read a] ∧
      (idleHost [.read a]).status.busy = false) ∧
    (∀ a : Addr, hostMoves (busyHost [.read a]) ∧ (busyHost [.read a]).host.script = [.read a]) ∧
    (0x00A : Addr).toNat = 0x00A ∧ (0x199 : Addr).toNat = 0x100 + 16 * 9 + 9 ∧
    (0x699 : Addr).toNat = 0x600 + 16 * 9 + 9 :=
  ⟨fun _ => ⟨Or.inl rfl, rfl, rfl⟩, fun _ => ⟨Or.inr rfl, rfl⟩, by decide, by decide, by decide⟩

/-- Idle and busy; the frozen addresses at the edges of the operand banks. -/
theorem witness_HostWriteTable :
    (idleHost []).status.busy = false ∧ (busyHost []).status.busy = true ∧
    (∀ a ∈ [0x100, 0x199, 0x200, 0x299],
      0x100 ≤ (BitVec.ofNat 11 a).toNat ∧ (BitVec.ofNat 11 a).toNat ≤ 0x2FF ∧
        ¬ reservedAddr (BitVec.ofNat 11 a)) ∧
    (0x300 ≤ (0x300 : Addr).toNat ∧ (0x300 : Addr).toNat ≤ 0x6FF) := by
  refine ⟨rfl, rfl, ?_, by decide⟩
  unfold reservedAddr; decide

theorem witness_IssueOfACommand :
    (idleHost [.write 0x004 5]).status.busy = false ∧
    (idleHost [.write 0x004 5]).host.script = [.write 0x004 5] := ⟨rfl, rfl⟩

/-- A MINV completes in one step. -/
theorem busyEngine_step : step (busyEngine 5) = .next (completed .minv (takeTurn (busyEngine 5))) := by
  have hm : mover (busyEngine 5) = .engine := by decide
  have hd : decode (takeTurn (busyEngine 5)).cmdLatch = .ok .minv := by decide
  simp only [step, hm, engineStep, hd, exec_eq_next]

theorem witness_InterruptLine :
    (engineMoves (busyEngine 5) ∧
      step (busyEngine 5) = .next (completed .minv (takeTurn (busyEngine 5)))) ∧
    (0x12 : Word).getLsbD 1 = true ∧ (idleHost []).status.busy = false :=
  ⟨⟨busyEngine_moves _, busyEngine_step⟩, by decide, rfl⟩

theorem witness_WrapperIsLittleEndian :
    hostMoves (idleHost []) ∧ [0x01, 0, 0, 0, 0, 0, 0x02, (0x80 : Byte)].length = 8 ∧
    ∀ k : Nat, k < 8 → [0x01, 0, 0, 0, 0, 0, 0x02, (0x80 : Byte)][k]? =
      some ((0x8002000000000001 : Word).extractLsb' (8 * k) 8) := ⟨Or.inl rfl, by decide, by decide⟩

/-- Too narrow, misaligned, and the first byte address past the engine's range. -/
theorem witness_WrapperRefusesOtherAccesses :
    (hostMoves (idleHost [.busRead 0 4]) ∧ (4 ≠ 8 ∨ 0 % 8 ≠ 0 ∨ 0x3FF8 < 0) ∧
      (idleHost [.busRead 0 4]).host.script = [.busRead 0 4]) ∧
    (8 ≠ 8 ∨ 0x3FF4 % 8 ≠ 0 ∨ 0x3FF8 < 0x3FF4) ∧ (8 ≠ 8 ∨ 0x4000 % 8 ≠ 0 ∨ 0x3FF8 < 0x4000) ∧
    ¬ (8 ≠ 8 ∨ 0x3FF8 % 8 ≠ 0 ∨ 0x3FF8 < 0x3FF8) ∧
    (hostMoves (idleHost [.busWrite 0 [1]]) ∧ ([(1 : Byte)].length ≠ 8) ∧
      (idleHost [.busWrite 0 [1]]).host.script = [.busWrite 0 [1]]) :=
  ⟨⟨Or.inl rfl, by decide, rfl⟩, by decide, by decide, by decide, Or.inl rfl, by decide, rfl⟩

theorem witness_HostCannotChangeFrozenState :
    (busyHost [.write 5 3]).status.busy = true ∧ hostMoves (busyHost [.write 5 3]) ∧
    (busyHost [.write 5 3]).host.script.head? ≠ some .reset ∧
    step (busyHost [.write 5 3]) = .next (nextOp (portWrite (takeTurn (busyHost [.write 5 3])) 5 3)) :=
  ⟨rfl, Or.inr rfl, by decide, rfl⟩

theorem witness_HostCannotInfluenceTheResult :
    (busyHost [.write 5 3]).status.busy = true ∧ hostMoves (busyHost [.write 5 3]) ∧
    (busyHost [.write 5 3]).host.script.head? ≠ some .reset ∧
    ∃ t u v, step (busyHost [.write 5 3]) = .next t ∧ t.status.wdrop = true ∧
      exec .minv (busyHost [.write 5 3]) = .next u ∧ exec .minv t = .next v :=
  ⟨rfl, Or.inr rfl, by decide, nextOp (portWrite (takeTurn (busyHost [.write 5 3])) 5 3), _, _,
    rfl, by decide, exec_eq_next .minv _, exec_eq_next .minv _⟩

/-- A completed MINV; a write of the last entry of the key; and writes next to the key. -/
theorem witness_InverseFlagRule :
    (step (busyEngine 5) = .next (completed .minv (takeTurn (busyEngine 5))) ∧
      engineMoves (busyEngine 5) ∧ decode (busyEngine 5).cmdLatch = .ok .minv ∧
      (completed .minv (takeTurn (busyEngine 5))).status.err = false) ∧
    (hostMoves (idleHost [.write 0x199 0]) ∧
      step (idleHost [.write 0x199 0]) =
        .next (nextOp (portWrite (idleHost [.write 0x199 0]) 0x199 0)) ∧
      (idleHost [.write 0x199 0]).status.busy = false ∧
      writtenAddr (.write 0x199 0) = some 0x199 ∧ keyAddr 0x199) ∧
    ¬ keyAddr 0x19A ∧ ¬ keyAddr 0x0FF ∧ ¬ keyAddr 0x200 ∧ ¬ keyAddr 0x007 := by
  refine ⟨⟨busyEngine_step, busyEngine_moves _, by decide, by decide⟩,
    ⟨Or.inl rfl, rfl, rfl, rfl, Or.inr (Or.inr ⟨9, 9, by decide⟩)⟩, ?_, ?_, ?_, ?_⟩ <;>
  · rintro (h | h | ⟨i, j, hi, hj, h⟩)
    · exact absurd h (by decide)
    · exact absurd h (by decide)
    · simp at h
      omega

theorem witness_ResetAbandonsTheCommand :
    ((busyHost [.reset]).status.busy = true ∧ hostMoves (busyHost [.reset]) ∧
      (busyHost [.reset]).host.script = [.reset]) ∧
    ((busyHost [.read 3]).status.busy = true ∧ hostMoves (busyHost [.read 3]) ∧
      (busyHost [.read 3]).host.script.head? ≠ some .reset ∧
      step (busyHost [.read 3]) = .next (nextOp (observe 3 (takeTurn (busyHost [.read 3]))))) :=
  ⟨⟨rfl, Or.inr rfl, rfl⟩, rfl, Or.inr rfl, by decide, rfl⟩

theorem witness_MatrixCommandsNeedADimension : (loaded 0 28 key2 []).n = State.reset.n := by decide

/-- A triangular matrix of each kind, rows in a ratio that is no integer, and a row of zeros. -/
theorem witness_DeterminantLaws :
    (∀ i j : Fin 2, i < j → (![![3, 0], ![5, 7]] : Mat 2) i j = 0) ∧
    (∀ i j : Fin 2, j < i → (![![3, 2], ![0, 7]] : Mat 2) i j = 0) ∧
    (0 : Fin 2) ≠ 1 ∧ ((3 : Int) ≠ 0 ∨ (2 : Int) ≠ 0) ∧
    (∀ j : Fin 2, 3 * (![![2, 4], ![3, 6]] : Mat 2) 0 j = 2 * (![![2, 4], ![3, 6]] : Mat 2) 1 j) ∧
    ((1 : Int) ≠ 0 ∨ (0 : Int) ≠ 0) ∧
    ∀ j : Fin 2, 1 * (![![0, 0], ![5, 7]] : Mat 2) 0 j = 0 * (![![0, 0], ![5, 7]] : Mat 2) 1 j := by
  decide

theorem witness_ScalarInverse :
    ((2 : Int) ≤ 2 ∧ (0 : Int) ≤ 0 ∧ (0 : Int) < 2 ∧ Int.gcd 0 2 ≠ 1) ∧
    ((0 : Int) ≤ 27 ∧ (27 : Int) < 28 ∧ Int.gcd 27 28 = 1) ∧
    (1 ≤ (19 : Int) ∧ (19 : Int) < 28 ∧ (3 : Int) * 19 % 28 = 1) := by decide

/-! #### Determinants and adjugates of the witnesses -/

/-- A key whose determinant is 2^63, the first that does not fit. -/
def wide2 : List (List Int) := [[4611686018427387904, 0], [0, 2]]

/-- A key whose determinant is −2^63, the last that fits. -/
def low2 : List (List Int) := [[-4611686018427387904, 0], [0, 2]]

theorem key2_det : (bankMatrix (loaded 2 28 key2 singular2) .A 2).det = 11 := by
  rw [Matrix.det_fin_two]; decide
theorem singular2_det : (bankMatrix (loaded 2 28 singular2 []) .A 2).det = 0 := by
  rw [Matrix.det_fin_two]; decide
theorem wide2_det : (bankMatrix (loaded 2 27 wide2 []) .A 2).det = 2 ^ 63 := by
  rw [Matrix.det_fin_two]; decide
theorem low2_det : (bankMatrix (loaded 2 27 low2 []) .A 2).det = -2 ^ 63 := by
  rw [Matrix.det_fin_two]; decide

theorem key2_adjugate_fits (i j : Fin 2) :
    fits64 ((bankMatrix (loaded 2 28 key2 singular2) .A 2).adjugate i j) := by
  rw [Matrix.adjugate_fin_two]
  unfold fits64
  fin_cases i <;> fin_cases j <;> decide

/-- n at both ends and just outside; a determinant just inside and just outside the words. -/
theorem witness_DetWritesTheDeterminant :
    (∀ n ∈ [0, 11, -1], ¬ (1 ≤ (loaded n 28 [] []).n.toInt ∧ (loaded n 28 [] []).n.toInt ≤ 10)) ∧
    (∀ k ∈ [0, 9], (loaded (k + 1) 28 [] []).n.toInt = k + 1 ∧ k + 1 ≤ 10) ∧
    ((loaded 2 27 wide2 []).n.toInt = (1 : Nat) + 1 ∧
      ¬ fits64 (bankMatrix (loaded 2 27 wide2 []) .A 2).det) ∧
    ((loaded 2 27 low2 []).n.toInt = (1 : Nat) + 1 ∧
      fits64 (bankMatrix (loaded 2 27 low2 []) .A 2).det) := by
  rw [wide2_det, low2_det]
  unfold fits64
  decide

/-- The last index inside and the first outside; −(−2^63) does not fit. -/
theorem witness_CofWritesTheCofactor :
    (15 < 16) ∧
    ¬ (1 ≤ (loaded 0 28 [] []).n.toInt ∧ (loaded 0 28 [] []).n.toInt ≤ 10) ∧
    (loaded 2 28 [[0, 0], [-9223372036854775808, 0]] []).n.toInt = (1 : Nat) + 1 ∧
    ¬ (0 < 1 + 1 ∧ 2 < 1 + 1) ∧ (0 < 1 + 1 ∧ 1 < 1 + 1) ∧
    ¬ fits64 ((-1) ^ (0 + 1) * ((bankMatrix (loaded 2 28 [[0, 0], [-9223372036854775808, 0]] [])
      .A 2).submatrix (Fin.succAbove 0) (Fin.succAbove 1)).det) ∧
    fits64 ((-1) ^ (0 + 1) * ((bankMatrix (loaded 2 28 key2 []) .A 2).submatrix
      (Fin.succAbove 0) (Fin.succAbove 1)).det) := by
  rw [Matrix.det_fin_one, Matrix.det_fin_one]
  unfold fits64
  decide

theorem witness_AdjWritesTheAdjugate :
    ¬ (1 ≤ (loaded 11 28 [] []).n.toInt ∧ (loaded 11 28 [] []).n.toInt ≤ 10) ∧
    ((loaded 2 27 wide2 []).n.toInt = (1 : Nat) + 1 ∧
      ¬ fits64 (bankMatrix (loaded 2 27 wide2 []) .A 2).det) ∧
    ((loaded 2 28 key2 singular2).n.toInt = (1 : Nat) + 1 ∧
      fits64 (bankMatrix (loaded 2 28 key2 singular2) .A 2).det ∧
      ∀ i j, fits64 ((bankMatrix (loaded 2 28 key2 singular2) .A 2).adjugate i j)) := by
  refine ⟨by decide, ⟨by decide, ?_⟩, by decide, ?_, key2_adjugate_fits⟩
  · rw [wide2_det]; unfold fits64; decide
  · rw [key2_det]; unfold fits64; decide

/-- The moduli 1 and 2 at the edge; 441 is invertible mod 26 and not mod 28 (V5a.1, V5a.2). -/
theorem witness_ModinvWritesTheScalarInverse :
    (loaded 0 1 [] []).m.toInt < 2 ∧ 2 ≤ (loaded 0 2 [] []).m.toInt ∧
    (2 ≤ (loaded 0 28 [] []).m.toInt ∧ Int.gcd ((441 : Word).toInt % 28) 28 ≠ 1) ∧
    (2 ≤ (loaded 0 26 [] []).m.toInt ∧ Int.gcd ((441 : Word).toInt % 26) 26 = 1) := by decide

theorem witness_MinvWritesTheInverse :
    ¬ (1 ≤ (loaded 0 28 [] []).n.toInt ∧ (loaded 0 28 [] []).n.toInt ≤ 10) ∧
    ((loaded 2 1 key2 []).n.toInt = (1 : Nat) + 1 ∧ (loaded 2 1 key2 []).m.toInt < 2) ∧
    ((loaded 2 28 singular2 []).n.toInt = (1 : Nat) + 1 ∧ 2 ≤ (loaded 2 28 singular2 []).m.toInt ∧
      Int.gcd ((bankMatrix (loaded 2 28 singular2 []) .A 2).det % 28) 28 ≠ 1) ∧
    ((loaded 2 27 wide2 []).n.toInt = (1 : Nat) + 1 ∧ 2 ≤ (loaded 2 27 wide2 []).m.toInt ∧
      Int.gcd ((bankMatrix (loaded 2 27 wide2 []) .A 2).det % 27) 27 = 1 ∧
      ¬ fits64 (bankMatrix (loaded 2 27 wide2 []) .A 2).det) ∧
    ((loaded 2 28 key2 singular2).n.toInt = (1 : Nat) + 1 ∧
      2 ≤ (loaded 2 28 key2 singular2).m.toInt ∧
      Int.gcd ((bankMatrix (loaded 2 28 key2 singular2) .A 2).det % 28) 28 = 1 ∧
      fits64 (bankMatrix (loaded 2 28 key2 singular2) .A 2).det ∧
      ∀ i j, fits64 ((bankMatrix (loaded 2 28 key2 singular2) .A 2).adjugate i j)) := by
  rw [singular2_det, wide2_det, key2_det]
  refine ⟨by decide, by decide, by decide, ⟨by decide, by decide, by decide, ?_⟩,
    by decide, by decide, by decide, ?_, key2_adjugate_fits⟩
  · unfold fits64; decide
  · unfold fits64; decide

/-- One operand state for each end of MMUL: the codes 27 and 28 at the edge of the range (V6.6), and
2^63 just outside the words (V6.14). -/
theorem witness_MmulWritesTheProduct :
    ¬ (1 ≤ (loaded 0 28 [] []).n.toInt ∧ (loaded 0 28 [] []).n.toInt ≤ 10) ∧
    ((loaded 2 1 [] []).n.toInt = (1 : Nat) + 1 ∧ (loaded 2 1 [] []).m.toInt < 2) ∧
    ((loaded 2 28 key2 []).n.toInt = (1 : Nat) + 1 ∧ 2 ≤ (loaded 2 28 key2 []).m.toInt ∧
      (loaded 2 28 key2 []).status.invv = false) ∧
    (∃ i j, ¬ (0 ≤ bankMatrix (loaded 2 28 [[1, 2], [3, 4]] [[0, 27], [28, 1]]) .B 2 i j ∧
      bankMatrix (loaded 2 28 [[1, 2], [3, 4]] [[0, 27], [28, 1]]) .B 2 i j < 28)) ∧
    (∃ i j, ¬ fits64 ((bankMatrix (loaded 2 28 [[4294967296, 0], [0, 1]] [[2147483648, 0], [0, 1]])
      .A 2 * bankMatrix (loaded 2 28 [[4294967296, 0], [0, 1]] [[2147483648, 0], [0, 1]]) .B 2)
      i j)) ∧
    (¬ (true = true ∧ ∃ i j, ¬ (0 ≤ bankMatrix (loaded 2 28 key2 singular2) .B 2 i j ∧
      bankMatrix (loaded 2 28 key2 singular2) .B 2 i j < 28)) ∧
      ∀ i j, fits64 ((bankMatrix (loaded 2 28 key2 singular2) .A 2 *
        bankMatrix (loaded 2 28 key2 singular2) .B 2) i j)) := by
  simp only [Matrix.mul_apply, Fin.sum_univ_two, bankMatrix, Matrix.of_apply]
  unfold fits64
  decide

theorem witness_ErrorsWriteOnlyStatus :
    exec .minv (loaded 2 28 singular2 []) = .next (completed .minv (loaded 2 28 singular2 [])) ∧
    (completed .minv (loaded 2 28 singular2 [])).status.err = true :=
  ⟨exec_eq_next _ _, by decide⟩

/-- ADJ does not write COFV; the entry just right of its window of ADJ is outside it. -/
theorem witness_CommandsWriteOnlyTheirResults :
    exec .adj (loaded 2 28 key2 []) = .next (completed .adj (loaded 2 28 key2 [])) ∧ 9 < 10 ∧
    (Reg.COFV ≠ .STATUS ∧ Reg.COFV ∉ registersWritten .adj) ∧ Instr.adj ≠ .minv ∧
    ∀ b ∈ banksWritten .adj, ∀ r c : Nat, (r : Int) < (loaded 2 28 key2 []).n.toInt →
      (c : Int) < (loaded 2 28 key2 []).n.toInt → 0x502 ≠ entryAddr b r c := by
  refine ⟨exec_eq_next _ _, by decide, by decide, by decide, fun b hb r c hr hc => ?_⟩
  have hn : (loaded 2 28 key2 []).n.toInt = 2 := by decide
  rw [hn] at hr hc
  have hb' : b = .ADJ := by simpa [banksWritten] using hb
  subst hb'
  show 0x502 ≠ 0x500 + 16 * r + c
  omega

/-- Two states that differ in N and in bank A, which MODINV does not read. -/
theorem witness_ResultsDependOnlyOnOperands :
    sameReads .modinv { loaded 0 28 [] [] with det := 9 } { loaded 5 28 key2 [] with det := 9 } ∧
    exec .modinv { loaded 0 28 [] [] with det := 9 } =
      .next (completed .modinv { loaded 0 28 [] [] with det := 9 }) ∧
    exec .modinv { loaded 5 28 key2 [] with det := 9 } =
      .next (completed .modinv { loaded 5 28 key2 [] with det := 9 }) ∧
    (completed .modinv { loaded 0 28 [] [] with det := 9 }).status.err = false :=
  ⟨⟨rfl, rfl⟩, exec_eq_next _ _, exec_eq_next _ _, by decide⟩

/-- A successful MINV; a key with a common factor; a negative determinant. -/
theorem witness_InverseLaws :
    ((loaded 2 28 key2 []).n.toInt = (1 : Nat) + 1 ∧
      exec .minv (loaded 2 28 key2 []) = .next (completed .minv (loaded 2 28 key2 [])) ∧
      (completed .minv (loaded 2 28 key2 [])).status.err = false) ∧
    ((loaded 2 28 singular2 []).n.toInt = (1 : Nat) + 1 ∧ 2 ≤ (loaded 2 28 singular2 []).m.toInt ∧
      Int.gcd ((bankMatrix (loaded 2 28 singular2 []) .A 2).det %
        (loaded 2 28 singular2 []).m.toInt) (loaded 2 28 singular2 []).m.toInt ≠ 1) ∧
    Int.gcd (-141 % 28) 28 = Nat.gcd (-141 : Int).natAbs (28 : Int).natAbs := by
  rw [singular2_det]
  exact ⟨⟨by decide, exec_eq_next _ _, by decide⟩, by decide, by decide⟩

theorem witness_RationalInverse :
    (loaded 2 28 key2 []).n.toInt = (1 : Nat) + 1 ∧
    exec .minv (loaded 2 28 key2 []) = .next (completed .minv (loaded 2 28 key2 [])) ∧
    (completed .minv (loaded 2 28 key2 [])).status.err = false :=
  ⟨by decide, exec_eq_next _ _, by decide⟩

theorem witness_ProductIsReduced :
    (loaded 2 28 singular2 key2).n.toInt = (1 : Nat) + 1 ∧
    exec (.mmul .A .B true) (loaded 2 28 singular2 key2) =
      .next (completed (.mmul .A .B true) (loaded 2 28 singular2 key2)) ∧
    (completed (.mmul .A .B true) (loaded 2 28 singular2 key2)).status.err = false :=
  ⟨by decide, exec_eq_next _ _, by decide⟩

/-- The states of a session (70 R265): MINV, then a block loaded into B, then the two products. -/
def trip1 : State := completed .minv (loaded 2 28 key2 singular2)
def block1 : State :=
  portWrite (portWrite (portWrite (portWrite trip1 0x200 0) 0x201 27) 0x210 7) 0x211 1
def trip2 : State := completed (.mmul .A .B true) block1
def trip3 : State := completed (.mmul .INV .C false) trip2

theorem block1_inverseHolds : inverseHolds block1 := ⟨1, by decide⟩

/-- The codes 0 and 27 are the ends of the range. -/
theorem witness_DecryptRecoversThePlaintext :
    (exec .minv (loaded 2 28 key2 singular2) = .next trip1 ∧ trip1.status.err = false) ∧
    block1.status.invv = true ∧ inverseHolds block1 ∧
    exec (.mmul .A .B true) block1 = .next trip2 ∧ trip2.status.err = false ∧
    exec (.mmul .INV .C false) trip2 = .next trip3 ∧ trip3.status.err = false ∧
    (∀ i j : Nat, (i : Int) < block1.n.toInt → (j : Int) < block1.n.toInt →
      0 ≤ (block1.entry .B i j).toInt ∧ (block1.entry .B i j).toInt < block1.m.toInt) := by
  refine ⟨⟨exec_eq_next _ _, by decide⟩, by decide, block1_inverseHolds, exec_eq_next _ _, by decide,
    exec_eq_next _ _, by decide, fun i j hi hj => ?_⟩
  have hn : block1.n.toInt = 2 := by decide
  have hB : ∀ i j : Fin 2, 0 ≤ (block1.entry .B i j).toInt ∧
      (block1.entry .B i j).toInt < block1.m.toInt := by decide
  rw [hn] at hi hj
  exact hB ⟨i, by omega⟩ ⟨j, by omega⟩

/-- A state with an inverse in place, and a step that keeps it: a write to bank B. -/
theorem witness_StepKeepsTheInvariants :
    Inv (scripted [.write 0x200 4] trip1) ∧ (scripted [.write 0x200 4] trip1).status.invv = true ∧
    step (scripted [.write 0x200 4] trip1) =
      .next (nextOp (portWrite (takeTurn (scripted [.write 0x200 4] trip1)) 0x200 4)) := by
  refine ⟨⟨by decide, by decide, by decide, by decide, fun _ => ⟨1, by decide⟩, by decide, by decide⟩,
    by decide, rfl⟩

theorem witness_StepKeepsTheBankForm :
    memWf (scripted [.write 0x100 3] trip1).mem ∧ step (scripted [.write 0x100 3] trip1) =
      .next (nextOp (portWrite (takeTurn (scripted [.write 0x100 3] trip1)) 0x100 3)) :=
  ⟨by decide, rfl⟩

/-- Two orders of the same writes. -/
theorem witness_EqualBanksAreEqualData :
    memWf (memWrite (memWrite [] 0x100 1) 0x200 2) ∧ memWf (memWrite (memWrite [] 0x200 2) 0x100 1) ∧
    ∀ a, memRead (memWrite (memWrite [] 0x100 1) 0x200 2) a =
      memRead (memWrite (memWrite [] 0x200 2) 0x100 1) a :=
  ⟨by decide, by decide, fun _ => rfl⟩

end Sys2Proof.Machine.Tests
end

namespace Sys2Proof.Machine

/-! ## The machine's arithmetic in the library's terms -/

/-- The expansion along the first row (40 R120) is the library's determinant. -/
theorem matDet_eq_det : ∀ {k : Nat} (X : Mat (k + 1)), matDet X = (Matrix.of X).det
  | 0, X => by simp [matDet]
  | 1, X => by simp [matDet, Matrix.det_fin_two]
  | k + 2, X => by
    rw [Matrix.det_succ_row_zero, matDet, sumFin_eq_sum]
    refine Finset.sum_congr rfl fun c _ => ?_
    rw [matDet_eq_det, sgn_eq_pow, minor_eq_submatrix, Fin.succAbove_zero]
    rfl

/-- The adjugate by transposed placement (41 R143) is the library's adjugate. -/
theorem adjugate_eq_adjugate {k : Nat} (X : Mat (k + 1)) :
    adjugate X = (Matrix.of X).adjugate := by
  funext i j
  cases k with
  | zero => simp [adjugate, cofactor, Fin.fin_one_eq_zero]
  | succ k =>
    rw [Matrix.adjugate_fin_succ_eq_det_submatrix, adjugate, cofactor, matDet_eq_det,
      sgn_eq_pow, minor_eq_submatrix]
    rfl

/-- Every round of the loop keeps `r = t * a` mod m, so the pair it answers is such a pair
(41 R145). -/
theorem euclid_keeps_congruence {a m : Int} (fuel : Nat) {r0 r1 t0 t1 : Int}
    (h0 : t0 * a ≡ r0 [ZMOD m]) (h1 : t1 * a ≡ r1 [ZMOD m]) :
    (euclid fuel r0 r1 t0 t1).2 * a ≡ (euclid fuel r0 r1 t0 t1).1 [ZMOD m] := by
  induction fuel generalizing r0 r1 t0 t1 with
  | zero => exact h0
  | succ fuel ih =>
    rw [euclid]
    split
    · exact h0
    · refine ih h1 ?_
      have hround := h0.sub (h1.mul_left (r0 / r1))
      rwa [← mul_assoc, ← sub_mul] at hround

/-- What the scalar solver answers is an inverse mod m (41 R145). -/
theorem mul_of_modinvOrNone_eq_some {a m x : Int} (hm : 2 ≤ m)
    (h : modinvOrNone a m = some x) : a * x % m = 1 := by
  simp only [modinvOrNone, Option.ite_none_right_eq_some, Option.some.injEq] at h
  obtain ⟨hone, rfl⟩ := h
  have hinv := euclid_keeps_congruence (a := a) (m := m) (a.toNat + 1) (r0 := m) (r1 := a)
    (t0 := 0) (t1 := 1) (by simp [Int.ModEq]) (by simp [Int.ModEq])
  rw [hone] at hinv
  have hmod : a * ((euclid (a.toNat + 1) m a 0 1).2 % m) ≡ 1 [ZMOD m] := by
    rw [mul_comm]
    exact ((Int.mod_modEq _ _).mul_right a).trans hinv
  rw [hmod.eq, Int.emod_eq_of_lt (by omega) (by omega)]

/-- The scaled adjugate is the inverse mod m (41 R152 a): `(di · adj X) · X` is `di · det X` times
the identity. -/
theorem matMul_scaleMod_adjugate {k : Nat} {X : Mat (k + 1)} {m di : Int}
    (hdi : matDet X % m * di % m = 1) (i j : Fin (k + 1)) :
    matMul (scaleMod di (adjugate X) m) X i j % m = if i = j then 1 else 0 := by
  have hadj : ∑ l, adjugate X i l * X l j = if i = j then matDet X else 0 := by
    have hmul := congrFun (congrFun (Matrix.adjugate_mul (Matrix.of X)) i) j
    rw [Matrix.mul_apply, ← adjugate_eq_adjugate, ← matDet_eq_det] at hmul
    simpa [Matrix.one_apply] using hmul
  have hred : matMul (scaleMod di (adjugate X) m) X i j ≡ ∑ l, di * adjugate X i l * X l j
      [ZMOD m] := by
    rw [matMul, sumFin_eq_sum]
    exact Int.ModEq.sum fun l _ => (Int.mod_modEq _ _).mul_right _
  have hscale : ∑ l, di * adjugate X i l * X l j = di * if i = j then matDet X else 0 := by
    rw [← hadj, Finset.mul_sum]
    exact Finset.sum_congr rfl fun l _ => mul_assoc _ _ _
  rw [hred.eq, hscale]
  split
  · rw [mul_comm, ← hdi]
    exact ((Int.mod_modEq _ _).mul_right di).symm
  · simp

/-! ## Steps and the host's side -/

/-- The schedule gives the engine's turns exactly where 43 R190 and R198 let it move. -/
theorem mover_eq_engine_iff {s : State} : mover s = .engine ↔ engineMoves s := by
  unfold mover engineMoves
  split <;> simp [*]

theorem mover_eq_host_iff {s : State} : mover s = .host ↔ hostMoves s := by
  unfold mover hostMoves
  split <;> simp [*]

theorem not_hostMoves_of_engineMoves {s : State} (h : engineMoves s) : ¬ hostMoves s := by
  rw [← mover_eq_host_iff, mover_eq_engine_iff.2 h]
  exact nofun

theorem not_engineMoves_of_hostMoves {s : State} (h : hostMoves s) : ¬ engineMoves s :=
  fun he => not_hostMoves_of_engineMoves he h

theorem sameEngine_takeTurn (s : State) : sameEngine s (takeTurn s) := by
  unfold takeTurn
  split <;> rfl

theorem sameEngine_nextOp (s : State) : sameEngine s (nextOp s) := rfl
theorem sameEngine_observe (a : Addr) (s : State) : sameEngine s (observe a s) := rfl
theorem sameEngine_observeBytes (b : Nat) (a : Addr) (s : State) :
    sameEngine s (observeBytes b a s) := rfl

/-- One rule for every invariant of the engine: what ignores the host's side, holds after a reset,
and is kept by a write at the port, an error entry and a completed command is kept by every step. -/
theorem step_preserves {P : State → Prop} (hhost : ∀ s t, sameEngine s t → P s → P t)
    (hreset : ∀ s, P (resetEngine s)) (hwrite : ∀ s a w, P s → P (portWrite s a w))
    (herror : ∀ s e, P s → P (raiseError e s))
    (hok : ∀ i s u, resultOf i s = .ok u → P s → P (succeed u))
    {s t : State} (hs : P s) (h : step s = .next t) : P t := by
  have hturn : P (takeTurn s) := hhost _ _ (sameEngine_takeTurn s) hs
  have hnext : ∀ u, P u → P (nextOp u) := fun u => hhost _ _ (sameEngine_nextOp u)
  rcases step_cases h with ⟨-, he⟩ | ⟨-, -, rfl⟩ | ⟨-, op, rest, -, hop⟩
  · rcases engineStep_cases he with ⟨-, rfl⟩ | ⟨i, -, ⟨u, hu, rfl⟩ | ⟨e, -, rfl⟩⟩
    · exact herror _ _ hturn
    · exact hok i _ u hu hturn
    · exact herror _ _ hturn
  · exact hturn
  · rcases runOp_cases hop with ⟨a, rfl⟩ | ⟨b, a, rfl⟩ | ⟨a, w, rfl⟩ | rfl | ⟨-, rfl⟩
    · exact hnext _ (hhost _ _ (sameEngine_observe a _) hturn)
    · exact hnext _ (hhost _ _ (sameEngine_observeBytes b a _) hturn)
    · exact hnext _ (hwrite _ a w hturn)
    · exact hhost _ _ (sameEngine_observe _ _) hturn
    · exact hnext _ (hreset _)

/-! ## The word of STATUS (10 R26) -/

/-- Every flag is 0 or 1 as a number. -/
theorem Status.flags_le_one (st : Status) : st.busy.toNat ≤ 1 ∧ st.done.toNat ≤ 1 ∧
    st.err.toNat ≤ 1 ∧ st.invv.toNat ≤ 1 ∧ st.wdrop.toNat ≤ 1 :=
  ⟨Bool.toNat_le _, Bool.toNat_le _, Bool.toNat_le _, Bool.toNat_le _, Bool.toNat_le _⟩

/-- The word of STATUS as a number: the sum of the fields fits in 64 bits. -/
theorem Status.word_toNat (st : Status) : st.word.toNat =
    st.busy.toNat + 2 * st.done.toNat + 4 * st.err.toNat + 8 * st.invv.toNat
      + 16 * st.wdrop.toNat + 256 * st.errcode.toNat := by
  have hflags := st.flags_le_one
  have hcode := st.errcode.isLt
  rw [Status.word, BitVec.toNat_ofNat, Nat.mod_eq_of_lt (by omega)]

/-- Bits 7:5 and 63:12 of STATUS are 0. -/
theorem Status.word_reserved (st : Status) :
    st.word.toNat / 32 % 8 = 0 ∧ st.word.toNat / 4096 = 0 := by
  have hflags := st.flags_le_one
  have hcode := st.errcode.isLt
  rw [Status.word_toNat]
  omega

/-! ## The invariants of 10 R49, part by part -/

/-- The clauses of 10 R49 (a) and (b), which speak of STATUS alone. -/
structure Status.Consistent (st : Status) : Prop where
  busy_not_done : st.busy = true → st.done = false
  err_iff : st.err = true ↔ st.errcode ≠ 0
  errcode_le : st.errcode.toNat ≤ 7
  busy_not_err : st.busy = true → st.err = false

theorem Status.consistent_reset : Status.reset.Consistent :=
  ⟨by decide, by decide, by decide, by decide⟩

theorem Status.consistent_issued (st : Status) : st.issued.Consistent :=
  ⟨by simp, by simp, by simp, by simp⟩

theorem Status.consistent_succeeded (st : Status) : st.succeeded.Consistent :=
  ⟨by simp, by simp, by simp, by simp⟩

theorem Status.consistent_failed (st : Status) (e : ErrCode) : (st.failed e).Consistent :=
  ⟨by simp, by simpa using errCode_num_pos e, errCode_num_le e, by simp⟩

theorem Status.Consistent.dropped {st : Status} (h : st.Consistent) : st.dropped.Consistent :=
  ⟨h.busy_not_done, h.err_iff, h.errcode_le, h.busy_not_err⟩

theorem Status.Consistent.inverseStale {st : Status} (h : st.Consistent) :
    st.inverseStale.Consistent :=
  ⟨h.busy_not_done, h.err_iff, h.errcode_le, h.busy_not_err⟩

theorem Status.Consistent.hostWrite {st : Status} (h : st.Consistent) (w : Word) :
    (st.hostWrite w).Consistent :=
  ⟨fun hb => by simp [h.busy_not_done hb], h.err_iff, h.errcode_le, h.busy_not_err⟩

theorem Inv.consistent {s : State} (h : Inv s) : s.status.Consistent :=
  ⟨h.busy_not_done, h.err_iff, h.errcode_le, h.busy_not_err⟩

/-- The invariants from their parts; the reserved bits of STATUS are 0 in every state. -/
theorem inv_of_parts {s : State} (hst : s.status.Consistent)
    (hinv : s.status.invv = true → inverseHolds s) (hctrl : s.ctrl.toNat ≤ 1) : Inv s :=
  ⟨hst.busy_not_done, hst.err_iff, hst.errcode_le, hst.busy_not_err, hinv, hctrl,
    s.status.word_reserved⟩

theorem ctrlWord_le_one (w : Word) : (ctrlWord w).toNat ≤ 1 := by
  rw [ctrlWord, BitVec.toNat_setWidth, BitVec.extractLsb'_toNat]
  omega

/-- Two states with the same dimension, modulus, key and content of bank INV: all that
`inverseHolds` speaks of. -/
structure sameKey (s t : State) : Prop where
  n : t.n = s.n
  m : t.m = s.m
  key : ∀ i j, i < 10 → j < 10 → t.entry .A i j = s.entry .A i j
  inverse : ∀ i j, i < 10 → j < 10 → t.entry .INV i j = s.entry .INV i j

theorem sameKey_of_mem {s t : State} (hn : t.n = s.n) (hm : t.m = s.m) (hmem : t.mem = s.mem) :
    sameKey s t :=
  ⟨hn, hm, fun i j _ _ => entry_eq_of_mem hmem _ i j, fun i j _ _ => entry_eq_of_mem hmem _ i j⟩

theorem sameKey.trans {s t u : State} (h : sameKey s t) (h' : sameKey t u) : sameKey s u :=
  ⟨h'.n.trans h.n, h'.m.trans h.m, fun i j hi hj => (h'.key i j hi hj).trans (h.key i j hi hj),
    fun i j hi hj => (h'.inverse i j hi hj).trans (h.inverse i j hi hj)⟩

/-- The entries below 10 make up every window of a legal dimension. -/
theorem win_eq_of_entries {s t : State} {b : Bank} {k : Nat} (hk : k ≤ 10)
    (h : ∀ i j, i < 10 → j < 10 → t.entry b i j = s.entry b i j) : win t b k = win s b k := by
  funext i j
  rw [win, win, h i j (by omega) (by omega)]

theorem inverseHolds_of_sameKey {s t : State} (h : sameKey s t) (hs : inverseHolds s) :
    inverseHolds t := by
  obtain ⟨k, hn, hk, hm, hrange, hmul⟩ := hs
  refine ⟨k, h.n ▸ hn, hk, h.m ▸ hm, ?_⟩
  rw [win_eq_of_entries hk h.key, win_eq_of_entries hk h.inverse, h.m]
  exact ⟨hrange, hmul⟩

/-- The invariants of a state whose INVV, if it is 1, was 1 before with the same key. -/
theorem inv_of_sameKey {s t : State} (hs : Inv s) (hst : t.status.Consistent)
    (hctrl : t.ctrl.toNat ≤ 1) (hinvv : t.status.invv = true → s.status.invv = true)
    (hkey : sameKey s t) : Inv t :=
  inv_of_parts hst (fun h => inverseHolds_of_sameKey hkey (hs.inverse_valid (hinvv h))) hctrl

/-! ## Each operation keeps the invariants -/

theorem inv_reset : Inv State.reset :=
  inv_of_parts Status.consistent_reset nofun (by decide)

theorem inv_of_sameEngine {s t : State} (h : sameEngine s t) (hs : Inv s) : Inv t := by
  rw [h]
  exact inv_of_sameKey hs hs.consistent hs.ctrl_reserved id (sameKey_of_mem rfl rfl rfl)

/-- A write to an entry of a bank that is neither A nor INV changes no entry of A or INV. -/
theorem sameKey_memWrite {s : State} {b : Bank} (hA : Bank.A ≠ b) (hI : Bank.INV ≠ b)
    {i j : Nat} (hi : i < 10) (hj : j < 10) (w : Word) :
    sameKey s { s with mem := memWrite s.mem (entryAddr b i j) w } := by
  have hother : ∀ b', b' ≠ b → ∀ i' j', i' < 10 → j' < 10 →
      memRead (memWrite s.mem (entryAddr b i j) w) (entryAddr b' i' j') =
        memRead s.mem (entryAddr b' i' j') := fun b' hb i' j' hi' hj' =>
    memRead_memWrite_of_ne _ _ fun h =>
      hb ((entryAddr_inj (by omega) (by omega) (by omega) (by omega)).1 h).1
  exact ⟨rfl, rfl, hother .A hA, hother .INV hI⟩

/-- An update that clears INVV keeps the invariants, whatever it does to N, M and the banks. -/
theorem inv_of_stale {s t : State} (hs : Inv s) (hst : t.status = s.status.inverseStale)
    (hctrl : t.ctrl = s.ctrl) : Inv t :=
  inv_of_parts (hst ▸ hs.consistent.inverseStale) (by simp [hst]) (hctrl ▸ hs.ctrl_reserved)

theorem inv_portWrite {s : State} (a : Addr) (w : Word) (hs : Inv s) : Inv (portWrite s a w) := by
  have hc := hs.consistent
  have hctrl := hs.ctrl_reserved
  cases hb : s.status.busy with
  | true =>
    rcases portWrite_cases_busy a w hb with e | e | e | e <;> rw [e]
    · exact hs
    · exact inv_of_sameKey hs hc.dropped hctrl id (sameKey_of_mem rfl rfl rfl)
    · exact inv_of_sameKey hs hc (ctrlWord_le_one w) id (sameKey_of_mem rfl rfl rfl)
    · exact inv_of_sameKey hs (hc.hostWrite w) hctrl id (sameKey_of_mem rfl rfl rfl)
  | false =>
    rcases portWrite_cases_idle a w hb with
      e | e | e | e | e | e | e | ⟨i, j, -, -, e⟩ | ⟨i, j, hi, hj, e⟩ <;> rw [e]
    · exact hs
    · exact inv_of_sameKey hs hc (ctrlWord_le_one w) id (sameKey_of_mem rfl rfl rfl)
    · exact inv_of_sameKey hs (hc.hostWrite w) hctrl id (sameKey_of_mem rfl rfl rfl)
    · exact inv_of_sameKey hs s.status.consistent_issued hctrl id (sameKey_of_mem rfl rfl rfl)
    · exact inv_of_stale hs rfl rfl
    · exact inv_of_stale hs rfl rfl
    · exact inv_of_sameKey hs hc hctrl id (sameKey_of_mem rfl rfl rfl)
    · exact inv_of_stale hs rfl rfl
    · exact inv_of_sameKey hs hc hctrl id (sameKey_memWrite (by decide) (by decide) hi hj w)

theorem inv_raiseError {s : State} (e : ErrCode) (hs : Inv s) : Inv (raiseError e s) :=
  inv_of_sameKey hs (s.status.consistent_failed e) hs.ctrl_reserved id (sameKey_of_mem rfl rfl rfl)

/-- A window write to a bank that is neither A nor INV changes no entry of A or INV. -/
theorem sameKey_writeWindow {s : State} {b : Bank} (hA : Bank.A ≠ b) (hI : Bank.INV ≠ b)
    {k : Nat} (hk : k ≤ 10) (X : Mat k) :
    sameKey s { s with mem := writeWindow s.mem b X } :=
  ⟨rfl, rfl,
    fun _ _ hi hj => memRead_writeWindow_other (by omega) hA _ (by omega) (by omega),
    fun _ _ hi hj => memRead_writeWindow_other (by omega) hI _ (by omega) (by omega)⟩

/-- A window just written reads as the matrix written, where its entries fit words. -/
theorem win_of_writeWindow {t : State} {m : Memory} {b : Bank} {k : Nat} {X : Mat k}
    (ht : t.mem = writeWindow m b X) (hk : k ≤ 16) (hfit : ∀ i j, fitsW (X i j) = true) :
    win t b k = X := by
  funext i j
  rw [win, State.entry, ht, memRead_writeWindow_inside hk, toS_toW (hfit i j)]

/-- A completed MINV leaves the inverse of the key in bank INV (41 R148, R152). -/
theorem inverseHolds_of_minvResult {s u : State} (h : minvResult s = .ok u) : inverseHolds u := by
  obtain ⟨k, m, di, hk, hm, hdi, -, -, hu⟩ := minvResult_eq_ok.1 h
  obtain ⟨hn, hk10⟩ := dimension?_eq_some.1 hk
  obtain ⟨rfl, hm2⟩ := modulus?_eq_some.1 hm
  have hun : u.n = s.n := by rw [hu]
  have hum : u.m = s.m := by rw [hu]
  have humem : u.mem = writeWindow (writeWindow s.mem .ADJ (adjugate (win s .A (k + 1)))) .INV
      (scaleMod di (adjugate (win s .A (k + 1))) (toS s.m)) := by rw [hu]
  have hrange : ∀ i j, 0 ≤ scaleMod di (adjugate (win s .A (k + 1))) (toS s.m) i j ∧
      scaleMod di (adjugate (win s .A (k + 1))) (toS s.m) i j < toS s.m := fun i j =>
    ⟨Int.emod_nonneg _ (by omega), Int.emod_lt_of_pos _ (by omega)⟩
  have hinverse : win u .INV (k + 1) = scaleMod di (adjugate (win s .A (k + 1))) (toS s.m) :=
    win_of_writeWindow humem (by omega) fun i j => fitsW_residue (hrange i j).1 (hrange i j).2
  have hkey : win u .A (k + 1) = win s .A (k + 1) := win_eq_of_entries hk10 fun i j hi hj => by
    rw [State.entry, humem,
      memRead_writeWindow_other (by omega) (by decide) _ (by omega) (by omega),
      memRead_writeWindow_other (by omega) (by decide) _ (by omega) (by omega), State.entry]
  refine ⟨k, hun ▸ hn, hk10, hum ▸ hm2, ?_⟩
  rw [hinverse, hkey, hum]
  exact ⟨hrange, matMul_scaleMod_adjugate (mul_of_modinvOrNone_eq_some hm2 hdi)⟩

/-- No command but MINV changes INVV or what INVV speaks of (43 R199). -/
theorem resultOf_keeps_key {i : Instr} {s u : State} (h : resultOf i s = .ok u) (hi : i ≠ .minv) :
    u.status.invv = s.status.invv ∧ sameKey s u := by
  cases i with
  | det =>
    obtain ⟨k, -, -, rfl⟩ := detResult_eq_ok.1 h
    exact ⟨rfl, sameKey_of_mem rfl rfl rfl⟩
  | cof i j =>
    obtain ⟨k, -, -, -, rfl⟩ := cofResult_eq_ok.1 h
    exact ⟨rfl, sameKey_of_mem rfl rfl rfl⟩
  | adj =>
    obtain ⟨k, hk, -, -, rfl⟩ := adjResult_eq_ok.1 h
    have hk10 := (dimension?_eq_some.1 hk).2
    have hw := sameKey_writeWindow (s := s) (b := .ADJ) (by decide) (by decide) hk10
    exact ⟨rfl, rfl, rfl, (hw _).key, (hw _).inverse⟩
  | modinv =>
    obtain ⟨m, x, -, -, rfl⟩ := modinvResult_eq_ok.1 h
    exact ⟨rfl, sameKey_of_mem rfl rfl rfl⟩
  | minv => exact absurd rfl hi
  | mmul sa sb rc =>
    obtain ⟨k, m, hk, -, -, -, -, rfl⟩ := mmulResult_eq_ok.1 h
    have hk10 := (dimension?_eq_some.1 hk).2
    exact ⟨rfl, (sameKey_writeWindow (b := .P) (by decide) (by decide) hk10 _).trans
      (sameKey_writeWindow (b := .C) (by decide) (by decide) hk10 _)⟩

theorem inv_succeed {i : Instr} {s u : State} (h : resultOf i s = .ok u) (hs : Inv s) :
    Inv (succeed u) := by
  have hctrl : u.ctrl.toNat ≤ 1 := by rw [resultOf_frame h]; exact hs.ctrl_reserved
  by_cases hi : i = .minv
  · subst hi
    refine inv_of_parts u.status.consistent_succeeded (fun _ => ?_) hctrl
    exact inverseHolds_of_sameKey (s := u) (sameKey_of_mem rfl rfl rfl)
      (inverseHolds_of_minvResult h)
  · obtain ⟨hinvv, hkey⟩ := resultOf_keeps_key h hi
    exact inv_of_sameKey hs u.status.consistent_succeeded hctrl (fun ht => hinvv ▸ ht)
      (hkey.trans (sameKey_of_mem rfl rfl rfl))

/-- Settles O44: every clause of 10 R49 at the reset state. -/
theorem invariantsHoldAtReset : Obligations.InvariantsHoldAtReset := inv_reset

/-- Settles O45: each operation a step is made of keeps the invariants. Clause (c) turns on MINV, which
leaves the scaled adjugate of the key in INV, and on the frame of every other operation. -/
theorem stepKeepsTheInvariants : Obligations.StepKeepsTheInvariants := fun _ _ =>
  step_preserves (fun _ _ => inv_of_sameEngine)
    (fun s => inv_of_sameEngine (t := resetEngine s) rfl inv_reset)
    (fun _ => inv_portWrite) (fun _ => inv_raiseError) (fun _ _ _ => inv_succeed)

/-! ## The canonical form of the banks (log entry 4) -/

theorem memWf_portWrite {s : State} (a : Addr) (w : Word) (hs : memWf s.mem) :
    memWf (portWrite s a w).mem := by
  cases hb : s.status.busy with
  | true => rcases portWrite_cases_busy a w hb with e | e | e | e <;> rw [e] <;> exact hs
  | false =>
    rcases portWrite_cases_idle a w hb with
      e | e | e | e | e | e | e | ⟨i, j, hi, hj, e⟩ | ⟨i, j, hi, hj, e⟩ <;> rw [e]
    exacts [hs, hs, hs, hs, hs, hs, hs, memWf_memWrite hs (implemented_entryAddr hi hj),
      memWf_memWrite hs (implemented_entryAddr hi hj)]

theorem memWf_resultOf {i : Instr} {s u : State} (h : resultOf i s = .ok u) (hs : memWf s.mem) :
    memWf u.mem := by
  cases i with
  | det => obtain ⟨k, -, -, rfl⟩ := detResult_eq_ok.1 h; exact hs
  | cof i j => obtain ⟨k, -, -, -, rfl⟩ := cofResult_eq_ok.1 h; exact hs
  | adj =>
    obtain ⟨k, hk, -, -, rfl⟩ := adjResult_eq_ok.1 h
    exact memWf_writeWindow (dimension?_eq_some.1 hk).2 hs
  | modinv => obtain ⟨m, x, -, -, rfl⟩ := modinvResult_eq_ok.1 h; exact hs
  | minv =>
    obtain ⟨k, m, di, hk, -, -, -, -, rfl⟩ := minvResult_eq_ok.1 h
    have hk10 := (dimension?_eq_some.1 hk).2
    exact memWf_writeWindow hk10 (memWf_writeWindow hk10 hs)
  | mmul sa sb rc =>
    obtain ⟨k, m, hk, -, -, -, -, rfl⟩ := mmulResult_eq_ok.1 h
    have hk10 := (dimension?_eq_some.1 hk).2
    exact memWf_writeWindow hk10 (memWf_writeWindow hk10 hs)

/-- Settles O46: only accepted writes to A and B and the windows of a command touch the banks, and
they write implemented entries. -/
theorem stepKeepsTheBankForm : Obligations.StepKeepsTheBankForm :=
  ⟨memWf_nil, fun _ _ => step_preserves (P := fun s => memWf s.mem)
    (fun s t h hs => by rw [h]; exact hs) (fun _ => memWf_nil) (fun _ => memWf_portWrite)
    (fun _ _ hs => hs) (fun _ _ _ => memWf_resultOf)⟩

/-- A canonical memory lists exactly the entries that do not read as unwritten. -/
theorem mem_iff_memRead {m : Memory} (hm : memWf m) {a : Nat} {w : Word} :
    (a, w) ∈ m ↔ memRead m a = w ∧ w ≠ Config.unwritten := by
  constructor
  · intro h
    exact ⟨memRead_of_mem hm.1 h, (hm.2 _ h).1⟩
  · rintro ⟨rfl, hw⟩
    have hlisted : ∃ c ∈ m, c.1 = a := by
      by_contra hno
      exact hw (memRead_of_not_listed fun c hc hca => hno ⟨c, hc, hca⟩)
    obtain ⟨c, hc, rfl⟩ := hlisted
    rwa [memRead_of_mem hm.1 hc]

/-- Settles O47: both list the same pairs, and a strictly rising order of the same pairs is unique. -/
theorem equalBanksAreEqualData : Obligations.EqualBanksAreEqualData := by
  intro m m' hm hm' hread
  have hmem : ∀ c : Nat × Word, c ∈ m ↔ c ∈ m' := fun ⟨a, w⟩ => by
    rw [mem_iff_memRead hm, mem_iff_memRead hm', hread]
  have hnodup : ∀ {l : Memory}, memWf l → l.Nodup := fun hl =>
    List.Pairwise.imp (fun hlt e => Nat.ne_of_lt hlt (congrArg Prod.fst e)) hl.1
  have hperm : m.Perm m' := (List.perm_ext_iff_of_nodup (hnodup hm) (hnodup hm')).2 hmem
  exact hperm.eq_of_pairwise (fun c d _ _ hcd hdc => absurd hcd (Nat.lt_asymm hdc)) hm.1 hm'.1

/-! ## The host's step while BUSY = 1 (10 R46) -/

/-- `t` differs from `s` at most in CTRL, DONE, WDROP and on the host's side: what a command reads and
what it holds is the same. -/
def frozenSame (s t : State) : Prop :=
  t = { s with ctrl := t.ctrl, host := t.host,
               status := { s.status with done := t.status.done, wdrop := t.status.wdrop } }

theorem frozenSame.trans {s t u : State} (h : frozenSame s t) (h' : frozenSame t u) :
    frozenSame s u := by
  unfold frozenSame at *
  rw [h', h]

theorem frozenSame_of_sameEngine {s t : State} (h : sameEngine s t) : frozenSame s t := by
  unfold frozenSame
  rw [h]

theorem frozenSame_portWrite {s : State} (a : Addr) (w : Word) (hb : s.status.busy = true) :
    frozenSame s (portWrite s a w) := by
  rcases portWrite_cases_busy a w hb with e | e | e | e <;> rw [e] <;> rfl

/-- Settles O19: an operation of the host that is no reset is a read or a write at the port, and a
write while BUSY = 1 reaches CTRL and the flags of STATUS only. -/
theorem hostCannotChangeFrozenState : Obligations.HostCannotChangeFrozenState := by
  intro s t hb hm hreset h
  have hturn : frozenSame s (takeTurn s) := frozenSame_of_sameEngine (sameEngine_takeTurn s)
  have hside : ∀ {u v : State}, frozenSame s u → sameEngine u v → frozenSame s v :=
    fun hu hv => hu.trans (frozenSame_of_sameEngine hv)
  have hnext : ∀ {u : State}, frozenSame s u → frozenSame s (nextOp u) :=
    fun hu => hside hu (sameEngine_nextOp _)
  show frozenSame s t
  rcases step_cases h with ⟨he, -⟩ | ⟨-, -, rfl⟩ | ⟨-, op, rest, hs, hop⟩
  · exact absurd hm (not_hostMoves_of_engineMoves (mover_eq_engine_iff.1 he))
  · exact hturn
  · rcases runOp_cases hop with ⟨a, rfl⟩ | ⟨b, a, rfl⟩ | ⟨a, w, rfl⟩ | rfl | ⟨rfl, -⟩
    · exact hnext (hside hturn (sameEngine_observe a _))
    · exact hnext (hside hturn (sameEngine_observeBytes b a _))
    · exact hnext (hturn.trans (frozenSame_portWrite a w (by rwa [takeTurn_status])))
    · exact hside hturn (sameEngine_observe _ _)
    · exact absurd (by rw [hs]; rfl) hreset

/-! ## INVV after a step (10 R30) -/

/-- The targets whose accepted write clears INVV (10 R30). -/
def isKeyTarget : Target → Bool
  | .reg .N => true
  | .reg .M => true
  | .entry .A _ _ => true
  | _ => false

/-- The registers at 0x005 and 0x006. -/
theorem regAt_key {a : Nat} {r : Reg} (h : regAt a = some r) :
    (a = 5 ↔ r = .N) ∧ (a = 6 ↔ r = .M) ∧ a < 11 := by
  unfold regAt at h
  split at h <;> cases h <;> decide

/-- The address map names the key by the addresses of 10 R30. -/
theorem isKeyTarget_iff {a : Addr} : isKeyTarget (addrTarget a) = true ↔ keyAddr a := by
  unfold keyAddr
  rcases addrTarget_cases a with ⟨r, hr, ht⟩ | ⟨b, i, j, hi, hj, ha, ht⟩ | ⟨hlo, hres, ht⟩
  · obtain ⟨h5, h6, hlt⟩ := regAt_key hr
    have hnoentry : (∃ i j : Nat, i < 10 ∧ j < 10 ∧ a.toNat = 0x100 + 16 * i + j) ↔ False := by
      simp only [iff_false]
      rintro ⟨i, j, -, -, h⟩
      omega
    rw [ht, h5, h6, hnoentry]
    cases r <;> simp [isKeyTarget]
  · have hbase : 0x100 ≤ bankBase b := by cases b <;> decide
    have hge : 0x100 ≤ a.toNat := by rw [ha, entryAddr]; omega
    have h5 : a.toNat ≠ 0x005 := by omega
    have h6 : a.toNat ≠ 0x006 := by omega
    have hkey : (∃ i j : Nat, i < 10 ∧ j < 10 ∧ a.toNat = 0x100 + 16 * i + j) ↔ b = .A := by
      constructor
      · rintro ⟨i', j', hi', hj', h⟩
        exact ((entryAddr_inj (b' := .A) (by omega) (by omega) (by omega) (by omega)).1
          (ha.symm.trans h)).1
      · rintro rfl
        exact ⟨i, j, hi, hj, ha⟩
    rw [ht, hkey]
    cases b <;> simp [isKeyTarget, h5, h6]
  · rw [ht]
    simp only [isKeyTarget, Bool.false_eq_true, false_iff]
    rintro (h | h | ⟨i, j, hi, hj, h⟩) <;> omega

/-- INVV after a write at the port: an accepted write of the key clears it, nothing else touches it. -/
theorem portWrite_invv (s : State) (a : Addr) (w : Word) :
    (portWrite s a w).status.invv = true ↔
      s.status.invv = true ∧ ¬ (s.status.busy = false ∧ keyAddr a) := by
  rw [← isKeyTarget_iff, portWrite]
  cases addrTarget a with
  | reg r => cases r <;> cases hb : s.status.busy <;> simp [writeReg, frozenWrite, isKeyTarget, hb]
  | entry b i j =>
    cases b <;> cases hb : s.status.busy <;> simp [writeEntry, frozenWrite, isKeyTarget, hb]
  | reserved => simp [isKeyTarget]

/-- INVV after one operation of the host. -/
theorem runOp_invv {op : HostOp} {s t : State} (h : runOp op s = .next t) :
    t.status.invv = true ↔ s.status.invv = true ∧
      ¬ (op = .reset ∨ (s.status.busy = false ∧ ∃ a, writtenAddr op = some a ∧ keyAddr a)) := by
  cases op with
  | read a => cases h; simp [writtenAddr]
  | write a w => cases h; simp [writtenAddr, portWrite_invv]
  | wait =>
    cases h
    unfold waitStep
    split <;> simp [writtenAddr]
  | busRead ba sz =>
    simp only [runOp] at h
    split at h
    · cases h; simp [writtenAddr]
    · exact nomatch h
  | busWrite ba data =>
    simp only [runOp] at h
    split at h
    · next a ha => cases h; simp [writtenAddr, ha, portWrite_invv]
    · exact nomatch h
  | reset => cases h; simp [State.reset, Status.reset]

/-- INVV after the completion of the word in flight. -/
theorem engineStep_invv {s t : State} (h : engineStep s = .next t) :
    t.status.invv = true ↔
      (decode s.cmdLatch = .ok .minv ∧ t.status.err = false) ∨ s.status.invv = true := by
  rcases engineStep_cases h with ⟨⟨r, hr⟩, rfl⟩ | ⟨i, hi, ⟨u, hu, rfl⟩ | ⟨e, -, rfl⟩⟩
  · simp [hr]
  · by_cases hminv : i = .minv
    · subst hminv
      obtain ⟨k, m, di, -, -, -, -, -, rfl⟩ := minvResult_eq_ok.1 hu
      simp [hi]
    · simp [hi, hminv, (resultOf_keeps_key hu hminv).1]
  · simp

/-- Settles O21: a step is the completion of the word in flight or an operation of the host, and each
has its rule for INVV. -/
theorem inverseFlagRule : Obligations.InverseFlagRule := by
  intro s t h
  rcases step_cases h with ⟨hm, he⟩ | ⟨hm, hs, rfl⟩ | ⟨hm, op, rest, hs, hop⟩
  · have hmoves := mover_eq_engine_iff.1 hm
    simp [engineStep_invv he, hmoves, not_hostMoves_of_engineMoves hmoves]
  · simp [hs, not_engineMoves_of_hostMoves (mover_eq_host_iff.1 hm)]
  · have hmoves := mover_eq_host_iff.1 hm
    have hop' := runOp_invv hop
    rw [takeTurn_status] at hop'
    rw [hop']
    simp [hs, hmoves, not_engineMoves_of_hostMoves hmoves]

/-! ## STATUS, addresses, reset -/

/-- A bit of a word is a binary digit of its number. -/
theorem getLsbD_eq_of_digit {w : Word} {b : Nat} {f : Bool} (h : w.toNat / 2 ^ b % 2 = f.toNat) :
    w.getLsbD b = f := by
  rw [← BitVec.testBit_toNat, Nat.testBit_eq_decide_div_mod_eq, h]
  cases f <;> rfl

/-- Settles O11: each bit is a digit of the sum of the fields, which is below 2^12. -/
theorem statusWordLayout : Obligations.StatusWordLayout := by
  intro st
  have hflags := st.flags_le_one
  have hcode := st.errcode.isLt
  have hsum := st.word_toNat
  have hbit : ∀ {b : Nat} {f : Bool}, st.word.toNat / 2 ^ b % 2 = f.toNat →
      st.word.getLsbD b = f := getLsbD_eq_of_digit
  refine ⟨hbit (by omega), hbit (by omega), hbit (by omega), hbit (by omega), hbit (by omega),
    ?_, ?_⟩
  · apply BitVec.eq_of_toNat_eq
    rw [BitVec.extractLsb'_toNat, Nat.shiftRight_eq_div_pow]
    omega
  · rintro b (hb | hb)
    · obtain rfl | rfl | rfl : b = 5 ∨ b = 6 ∨ b = 7 := by omega
      all_goals exact hbit (by rw [Bool.toNat_false]; omega)
    · have hpow : 2 ^ 12 ≤ 2 ^ b := Nat.pow_le_pow_right (by decide) hb
      exact hbit (by rw [Nat.div_eq_of_lt (by omega)]; rfl)

/-- Settles O12: the formula is the definition, and entries with small indices have different
addresses. -/
theorem entryAddresses : Obligations.EntryAddresses :=
  ⟨fun _ _ => ⟨rfl, rfl, rfl, rfl, rfl, rfl⟩, fun _ _ _ _ _ _ hi hj hi' hj' h =>
    (entryAddr_inj (by omega) (by omega) (by omega) (by omega)).1 h⟩

/-- Settles O22: each value of the table of 10 R50 is the reset state's own, and an idle engine has no
step. -/
theorem resetValues : Obligations.ResetValues :=
  ⟨rfl, by decide, rfl, rfl, rfl, rfl, rfl, rfl, rfl, rfl, rfl, rfl, fun _ _ _ _ _ => rfl, rfl, rfl,
    fun h => nomatch h.1⟩

end Sys2Proof.Machine

namespace Sys2Proof.Machine

/-! ## The wrapper (20 R63, R64) -/

/-- The access of eight bytes at `8 * a` is the access of word `a`. -/
theorem wrapperAddr_aligned (a : Addr) : wrapperAddr (8 * a.toNat) 8 = some a := by
  have hlt := a.isLt
  rw [wrapperAddr, if_pos (by omega), Nat.mul_div_cancel_left _ (by decide), BitVec.ofNat_toNat,
    BitVec.setWidth_eq]

/-- Any other size, any other alignment and any address past the range names no word. -/
theorem wrapperAddr_eq_none {byteAddr size : Nat}
    (h : size ≠ 8 ∨ byteAddr % 8 ≠ 0 ∨ 0x3FF8 < byteAddr) : wrapperAddr byteAddr size = none :=
  if_neg (by omega)

/-- Bit `i` of the word is bit `i % 8` of byte `i / 8`; a byte that is not listed counts as 0. -/
theorem getLsbD_wordOfBytes (bytes : List Byte) {i : Nat} (hi : i < 64) :
    (wordOfBytes bytes).getLsbD i = (bytes[i / 8]?.getD 0).getLsbD (i % 8) := by
  induction bytes generalizing i with
  | nil => simp [wordOfBytes]
  | cons b t ih =>
    rw [wordOfBytes, BitVec.getLsbD_or, BitVec.getLsbD_setWidth, BitVec.getLsbD_shiftLeft]
    by_cases hlow : i < 8
    · simp [hi, hlow, Nat.div_eq_of_lt hlow, Nat.mod_eq_of_lt hlow]
    · have hdiv : i / 8 = (i - 8) / 8 + 1 := by omega
      have hmod : i % 8 = (i - 8) % 8 := by omega
      rw [hdiv, hmod, List.getElem?_cons_succ, ← ih (by omega),
        BitVec.getLsbD_of_ge b i (by omega)]
      simp [hi, hlow]

/-- The bytes of a word, put together, are the word. -/
theorem wordOfBytes_eq {bytes : List Byte} {w : Word}
    (h : ∀ k : Nat, k < 8 → bytes[k]? = some (w.extractLsb' (8 * k) 8)) : wordOfBytes bytes = w := by
  apply BitVec.eq_of_getLsbD_eq
  intro i hi
  rw [getLsbD_wordOfBytes bytes hi, h (i / 8) (by omega), Option.getD_some,
    BitVec.getLsbD_extractLsb', Nat.div_add_mod]
  simp [Nat.mod_lt]

@[simp] theorem length_bytesOfWord (w : Word) : (bytesOfWord w).length = 8 := rfl

theorem getElem?_bytesOfWord (w : Word) {k : Nat} (hk : k < 8) :
    (bytesOfWord w)[k]? = some (w.extractLsb' (8 * k) 8) := by
  simp [bytesOfWord, hk]

/-! ## A host step with another script

Two accesses at the head of the same script are compared by carrying the script through each
operation: none of them reads it. -/

/-- `s` with the operations `ops` to come. -/
def withScript (ops : List HostOp) (s : State) : State :=
  { s with host := { s.host with script := ops } }

@[simp] theorem withScript_status (ops : List HostOp) (s : State) :
    (withScript ops s).status = s.status := rfl

theorem takeTurn_withScript (ops : List HostOp) (s : State) :
    takeTurn (withScript ops s) = withScript ops (takeTurn s) := by
  rw [takeTurn, takeTurn, withScript_status]
  split <;> rfl

theorem nextOp_withScript (op : HostOp) (rest : List HostOp) (s : State) :
    nextOp (withScript (op :: rest) s) = withScript rest s := rfl

theorem observe_withScript (ops : List HostOp) (a : Addr) (s : State) :
    observe a (withScript ops s) = withScript ops (observe a s) := rfl

theorem observeBytes_withScript (ops : List HostOp) (b : Nat) (a : Addr) (s : State) :
    observeBytes b a (withScript ops s) = withScript ops (observeBytes b a s) := rfl

theorem frozenWrite_withScript (ops : List HostOp) (s t : State) :
    frozenWrite (withScript ops s) (withScript ops t) = withScript ops (frozenWrite s t) := by
  rw [frozenWrite, frozenWrite, withScript_status]
  split <;> rfl

theorem writeReg_withScript (ops : List HostOp) (s : State) (w : Word) :
    ∀ r : Reg, writeReg (withScript ops s) w r = withScript ops (writeReg s w r)
  | .CMD => frozenWrite_withScript ops s (issueCommand w s)
  | .N => frozenWrite_withScript ops s { s with n := w, status := s.status.inverseStale }
  | .M => frozenWrite_withScript ops s { s with m := w, status := s.status.inverseStale }
  | .DET => frozenWrite_withScript ops s { s with det := w }
  | .ID | .CFG | .CTRL | .STATUS | .DETMOD | .DETINV | .COFV => rfl

theorem writeEntry_withScript (ops : List HostOp) (s : State) (w : Word) (i j : Nat) :
    ∀ b : Bank, writeEntry (withScript ops s) w b i j = withScript ops (writeEntry s w b i j)
  | .A => frozenWrite_withScript ops s
      { s with mem := memWrite s.mem (entryAddr .A i j) w, status := s.status.inverseStale }
  | .B => frozenWrite_withScript ops s { s with mem := memWrite s.mem (entryAddr .B i j) w }
  | .C | .INV | .ADJ | .P => rfl

theorem portWrite_withScript (ops : List HostOp) (s : State) (a : Addr) (w : Word) :
    portWrite (withScript ops s) a w = withScript ops (portWrite s a w) := by
  unfold portWrite
  cases addrTarget a with
  | reg r => exact writeReg_withScript ops s w r
  | entry b i j => exact writeEntry_withScript ops s w i j b
  | reserved => rfl

/-- The step of a host that moves is the operation at the head of its script. -/
theorem step_of_hostMoves {s : State} {op : HostOp} {rest : List HostOp} (hm : hostMoves s)
    (hs : s.host.script = op :: rest) : step s = runOp op (takeTurn s) := by
  rw [step, mover_eq_host_iff.2 hm]
  simp only [hostStep, takeTurn_script, hs]

theorem step_withScript {s : State} (hm : hostMoves s) (op : HostOp) (rest : List HostOp) :
    step (withScript (op :: rest) s) = runOp op (withScript (op :: rest) (takeTurn s)) := by
  rw [step_of_hostMoves (s := withScript (op :: rest) s) hm rfl, takeTurn_withScript]

theorem step_write {s : State} (hm : hostMoves s) (a : Addr) (w : Word) (rest : List HostOp) :
    step (withScript (.write a w :: rest) s) =
      .next (withScript rest (portWrite (takeTurn s) a w)) := by
  rw [step_withScript hm, runOp, portWrite_withScript, nextOp_withScript]

theorem step_read {s : State} (hm : hostMoves s) (a : Addr) (rest : List HostOp) :
    step (withScript (.read a :: rest) s) = .next (withScript rest (observe a (takeTurn s))) := by
  rw [step_withScript hm, runOp, observe_withScript, nextOp_withScript]

theorem step_busWrite {s : State} (hm : hostMoves s) (a : Addr) {bytes : List Byte}
    (hlen : bytes.length = 8) (rest : List HostOp) :
    step (withScript (.busWrite (8 * a.toNat) bytes :: rest) s) =
      .next (withScript rest (portWrite (takeTurn s) a (wordOfBytes bytes))) := by
  simp only [step_withScript hm, runOp, hlen, wrapperAddr_aligned]
  rw [portWrite_withScript, nextOp_withScript]

theorem step_busRead {s : State} (hm : hostMoves s) (a : Addr) (rest : List HostOp) :
    step (withScript (.busRead (8 * a.toNat) 8 :: rest) s) =
      .next (withScript rest (observeBytes (8 * a.toNat) a (takeTurn s))) := by
  simp only [step_withScript hm, runOp, wrapperAddr_aligned]
  rw [observeBytes_withScript, nextOp_withScript]

/-- Settles O17: the wrapper names word `a`, and the bytes and the word are each other's digits. -/
theorem wrapperIsLittleEndian : Obligations.WrapperIsLittleEndian := by
  intro s a rest hm
  refine ⟨fun bytes w hlen hbytes => ?_, withScript rest (observe a (takeTurn s)),
    portRead (takeTurn s) a, bytesOfWord (portRead (takeTurn s) a), step_read hm a rest, ?_,
    length_bytesOfWord _, fun k hk => getElem?_bytesOfWord _ hk, ?_⟩
  · calc step (withScript (.busWrite (8 * a.toNat) bytes :: rest) s)
        = .next (withScript rest (portWrite (takeTurn s) a (wordOfBytes bytes))) :=
          step_busWrite hm a hlen rest
      _ = .next (withScript rest (portWrite (takeTurn s) a w)) := by rw [wordOfBytes_eq hbytes]
      _ = step (withScript (.write a w :: rest) s) := (step_write hm a w rest).symm
  · show (observe a (takeTurn s)).host.reads = _
    rw [observe_reads, takeTurn_reads]
  · rw [← takeTurn_busReads]
    exact step_busRead hm a rest

/-- Settles O18: such an access names no word, and an access without a word is refused. -/
theorem wrapperRefusesOtherAccesses : Obligations.WrapperRefusesOtherAccesses := by
  intro s byteAddr rest hm
  constructor
  · intro size hbad hs
    simp only [step_of_hostMoves hm hs, runOp, wrapperAddr_eq_none hbad]
  · intro bytes hbad hs
    simp only [step_of_hostMoves hm hs, runOp, wrapperAddr_eq_none hbad]

end Sys2Proof.Machine

namespace Sys2Proof.Machine

/-! ## The fields of a command word (30 R90, R94 to R96) -/

theorem toNat_opField (w : CmdWord) : (opField w).toNat = w.toNat % 256 := by
  simp [opField]

theorem opField_eq_iff {w : CmdWord} {op : BitVec 8} :
    opField w = op ↔ w.toNat % 256 = op.toNat := by
  rw [← toNat_opField, BitVec.toNat_inj]

/-- A field of a command word, as a digit of the word. -/
theorem toNat_field (w : CmdWord) (k len : Nat) :
    (w.extractLsb' k len).toNat = w.toNat / 2 ^ k % 2 ^ len := by
  rw [BitVec.extractLsb'_toNat, Nat.shiftRight_eq_div_pow]

/-- All bits of a word from bit `k` up are zero iff its quotient by `2 ^ k` is. -/
theorem topField_eq_zero_iff {w : CmdWord} {k len : Nat} (hk : k + len = 32) :
    w.extractLsb' k len = 0 ↔ w.toNat / 2 ^ k = 0 := by
  have hlt : w.toNat / 2 ^ k < 2 ^ len :=
    Nat.div_lt_of_lt_mul (by rw [← pow_add, hk]; exact w.isLt)
  rw [← BitVec.toNat_inj, toNat_field, Nat.mod_eq_of_lt hlt]
  rfl

/-- The bank of a code is the bank with that code (30 R98). -/
theorem bankOfCode_eq_iff (c : BitVec 2) (b : BankSel) :
    bankOfCode c = b ↔ codeOfBank b = c.toNat := by
  cases b <;> revert c <;> decide

/-- A bit of a word is a flag iff the word's binary digit there is the flag as a number. -/
theorem getLsbD_eq_iff {w : CmdWord} {k : Nat} {b : Bool} :
    w.getLsbD k = b ↔ b.toNat = w.toNat / 2 ^ k % 2 := by
  rw [BitVec.getLsbD, Nat.testBit_eq_decide_div_mod_eq]
  cases b
  · simpa using eq_comm
  · simpa using eq_comm

/-! ## What the decoder accepts -/

/-- The bit from which the format of a command marks every bit zero (30 R94 to R96). -/
def zerosFrom : Instr → Nat
  | .cof _ _ => 16
  | .mmul _ _ _ => 13
  | _ => 8

/-- The operand fields of the word, where the command's format has some, are the command's operands
(30 R95, R96). -/
def hasOperands (w : CmdWord) : Instr → Prop
  | .cof i j => i = w.toNat / 256 % 16 ∧ j = w.toNat / 4096 % 16
  | .mmul sa sb rc =>
    codeOfBank sa = w.toNat / 256 % 4 ∧ codeOfBank sb = w.toNat / 1024 % 4 ∧
      rc.toNat = w.toNat / 4096 % 2
  | _ => True

/-- The decoder of the format a command has. -/
def decodeFormat (w : CmdWord) : Instr → Except Illegal Instr
  | .cof _ _ => decodeX w
  | .mmul _ _ _ => decodeM w
  | i => decodeZ i w

/-- Where the opcode is that of `i`, the format of `i` decides. -/
theorem decode_of_opField {w : CmdWord} {i : Instr} (h : opField w = opcodeOf i) :
    decode w = decodeFormat w i := by
  cases i <;> simp [decode, h, opcodeOf, decodeFormat]

/-- A format accepts a word exactly when its zero bits are zero. -/
theorem ite_ok_eq_ok_iff {p : Prop} [Decidable p] {c i : Instr} :
    (if p then .ok c else .error .zeroBits : Except Illegal Instr) = .ok i ↔ p ∧ c = i := by
  split <;> simp [*]

theorem decodeZ_eq_ok_iff {w : CmdWord} {c i : Instr} :
    decodeZ c w = .ok i ↔ w.toNat / 2 ^ 8 = 0 ∧ c = i := by
  rw [decodeZ, ite_ok_eq_ok_iff, topField_eq_zero_iff (by rfl)]

theorem decodeX_eq_ok_iff {w : CmdWord} {i : Instr} :
    decodeX w = .ok i ↔ w.toNat / 2 ^ 16 = 0 ∧
      .cof (w.toNat / 2 ^ 8 % 2 ^ 4) (w.toNat / 2 ^ 12 % 2 ^ 4) = i := by
  rw [decodeX, ite_ok_eq_ok_iff, topField_eq_zero_iff (by rfl), toNat_field, toNat_field]

theorem decodeM_eq_ok_iff {w : CmdWord} {i : Instr} :
    decodeM w = .ok i ↔ w.toNat / 2 ^ 13 = 0 ∧
      .mmul (bankOfCode (w.extractLsb' 8 2)) (bankOfCode (w.extractLsb' 10 2))
        (w.getLsbD 12) = i := by
  rw [decodeM, ite_ok_eq_ok_iff, topField_eq_zero_iff (by rfl)]

/-- A decoded command has the opcode of the word. -/
theorem opField_of_decode {w : CmdWord} {i : Instr} (h : decode w = .ok i) :
    opField w = opcodeOf i := by
  unfold decode at h
  split_ifs at h with h1 h2 h3 h4 h5 h8
  · rw [h1, ← (decodeZ_eq_ok_iff.1 h).2]; rfl
  · rw [h2, ← (decodeX_eq_ok_iff.1 h).2]; rfl
  · rw [h3, ← (decodeZ_eq_ok_iff.1 h).2]; rfl
  · rw [h4, ← (decodeZ_eq_ok_iff.1 h).2]; rfl
  · rw [h5, ← (decodeZ_eq_ok_iff.1 h).2]; rfl
  · rw [h8, ← (decodeM_eq_ok_iff.1 h).2]; rfl

theorem decodeFormat_eq_ok_iff {w : CmdWord} {i : Instr} :
    decodeFormat w i = .ok i ↔ w.toNat / 2 ^ zerosFrom i = 0 ∧ hasOperands w i := by
  cases i with
  | cof i j =>
    simp only [decodeFormat, decodeX_eq_ok_iff, Instr.cof.injEq, zerosFrom, hasOperands]
    omega
  | mmul sa sb rc =>
    simp only [decodeFormat, decodeM_eq_ok_iff, Instr.mmul.injEq, zerosFrom, hasOperands,
      bankOfCode_eq_iff, toNat_field, getLsbD_eq_iff]
    norm_num
  | _ => simp [decodeFormat, decodeZ_eq_ok_iff, zerosFrom, hasOperands]

/-- What a word decodes to: the command whose opcode, zero bits and operands the word has
(30 R91, R94 to R96). -/
theorem decode_eq_ok_iff {w : CmdWord} {i : Instr} :
    decode w = .ok i ↔ w.toNat % 256 = (opcodeOf i).toNat ∧
      w.toNat / 2 ^ zerosFrom i = 0 ∧ hasOperands w i := by
  rw [← opField_eq_iff, ← decodeFormat_eq_ok_iff]
  constructor
  · intro h
    have hop := opField_of_decode h
    exact ⟨hop, decode_of_opField hop ▸ h⟩
  · rintro ⟨hop, h⟩
    rwa [decode_of_opField hop]

/-! ## Decode and Encode (30 R97) -/

theorem codeOfBank_lt (b : BankSel) : codeOfBank b < 4 := by cases b <;> decide

theorem toNat_encode_cof {i j : Nat} (hi : i ≤ 15) (hj : j ≤ 15) :
    (encode (.cof i j)).toNat = 0x02 + 256 * i + 4096 * j := by
  rw [encode, BitVec.toNat_ofNat, Nat.mod_eq_of_lt (by omega)]

theorem toNat_encode_mmul (sa sb : BankSel) (rc : Bool) :
    (encode (.mmul sa sb rc)).toNat =
      0x08 + 256 * codeOfBank sa + 1024 * codeOfBank sb + 4096 * rc.toNat := by
  have hsa := codeOfBank_lt sa
  have hsb := codeOfBank_lt sb
  have hrc := rc.toNat_le
  rw [encode, BitVec.toNat_ofNat, Nat.mod_eq_of_lt (by omega)]

/-- A word decodes to a command exactly when the command has an encoding and the word is it: opcode,
operands and zero bits are all the digits of the word. -/
theorem decode_eq_ok_iff_encode {w : CmdWord} {i : Instr} :
    decode w = .ok i ↔ i.wf = true ∧ encode i = w := by
  rw [decode_eq_ok_iff, ← BitVec.toNat_inj]
  cases i with
  | cof i j =>
    simp only [opcodeOf, zerosFrom, hasOperands, Instr.wf, BitVec.ofNat_eq_ofNat,
      BitVec.toNat_ofNat, Bool.and_eq_true, decide_eq_true_eq]
    constructor
    · rintro ⟨hop, hzero, hi, hj⟩
      refine ⟨by omega, ?_⟩
      rw [toNat_encode_cof (by omega) (by omega)]
      omega
    · rintro ⟨⟨hi, hj⟩, hw⟩
      rw [toNat_encode_cof (by omega) (by omega)] at hw
      omega
  | mmul sa sb rc =>
    have hsa := codeOfBank_lt sa
    have hsb := codeOfBank_lt sb
    have hrc := rc.toNat_le
    simp only [opcodeOf, zerosFrom, hasOperands, Instr.wf, toNat_encode_mmul,
      BitVec.ofNat_eq_ofNat, BitVec.toNat_ofNat, true_and]
    omega
  | _ =>
    simp only [opcodeOf, zerosFrom, hasOperands, Instr.wf, encode, BitVec.ofNat_eq_ofNat,
      BitVec.toNat_ofNat, true_and, and_true]
    omega

theorem codeOfBank_cases (b : BankSel) :
    b = .A ∧ codeOfBank b = 0 ∨ b = .B ∧ codeOfBank b = 1 ∨
      b = .C ∧ codeOfBank b = 2 ∨ b = .INV ∧ codeOfBank b = 3 := by
  cases b <;> simp [codeOfBank]

/-- Settles O2: a word decodes to a command iff the command is well formed and the word is its
encoding. -/
theorem decodeAndEncodeAgree : Obligations.DecodeAndEncodeAgree := by
  refine ⟨⟨rfl, rfl, rfl, rfl⟩, fun i j => toNat_encode_cof, fun sa sb rc => ?_, fun i hi => ?_,
    fun w i => decode_eq_ok_iff_encode.1, fun w i j h => ?_⟩
  · refine ⟨_, _, codeOfBank_cases sa, codeOfBank_cases sb, ?_⟩
    rw [toNat_encode_mmul, Bool.toNat, Bool.cond_eq_ite]
  · exact decode_eq_ok_iff_encode.2 ⟨hi, rfl⟩
  · obtain ⟨-, -, hoperands⟩ := decode_eq_ok_iff.1 h
    exact hoperands

/-! ## The rows of the opcode table -/

/-- The mask of a format whose bits from `k` up are zero: the opcode and the zero bits. -/
def formatMask (k : Nat) : CmdWord := (BitVec.allOnes 8).setWidth 32 ||| BitVec.allOnes 32 <<< k

theorem getLsbD_formatMask (k : Nat) {i : Nat} (hi : i < 32) :
    (formatMask k).getLsbD i = (decide (i < 8) || decide (k ≤ i)) := by
  have hsub : i - k < 32 := by omega
  rw [formatMask, BitVec.getLsbD_or, BitVec.getLsbD_setWidth, BitVec.getLsbD_shiftLeft,
    BitVec.getLsbD_allOnes, BitVec.getLsbD_allOnes]
  simp only [hi, hsub, decide_true, Bool.true_and, Bool.and_true, ← decide_not, Nat.not_lt]

/-- The bits of a word under the mask of its format are the opcode iff the opcode field is, and the
zero bits are zero. -/
theorem and_formatMask_eq_iff {w : CmdWord} {k : Nat} {op : BitVec 8} (h8 : 8 ≤ k) (h32 : k ≤ 32) :
    w &&& formatMask k = op.setWidth 32 ↔ w.toNat % 256 = op.toNat ∧ w.toNat / 2 ^ k = 0 := by
  rw [← opField_eq_iff, ← topField_eq_zero_iff (show k + (32 - k) = 32 by omega)]
  constructor
  · intro h
    have hbit : ∀ i < 32, (w.getLsbD i && (decide (i < 8) || decide (k ≤ i))) = op.getLsbD i := by
      intro i hi
      rw [← getLsbD_formatMask k hi, ← BitVec.getLsbD_and, h, BitVec.getLsbD_setWidth]
      simp [hi]
    constructor
    · refine BitVec.eq_of_getLsbD_eq fun i hi => ?_
      simpa [opField, hi] using hbit i (by omega)
    · refine BitVec.eq_of_getLsbD_eq fun i hi => ?_
      have hhigh := hbit (k + i) (by omega)
      rw [BitVec.getLsbD_of_ge op (k + i) (by omega)] at hhigh
      simpa [hi] using hhigh
  · rintro ⟨rfl, hzero⟩
    refine BitVec.eq_of_getLsbD_eq fun i hi => ?_
    have hhigh : k ≤ i → w.getLsbD i = false := fun hki => by
      have := congrArg (BitVec.getLsbD · (i - k)) hzero
      simpa [show i - k < 32 - k by omega, show k + (i - k) = i by omega] using this
    rw [BitVec.getLsbD_and, getLsbD_formatMask k hi]
    by_cases hlow : i < 8
    · simp [opField, hi, hlow]
    · by_cases hki : k ≤ i
      · simp [opField, hlow, hhigh hki]
      · simp [opField, hlow, hki]

/-- Every 2-bit code is the code of a bank (30 R98). -/
theorem exists_codeOfBank {c : Nat} (hc : c < 4) : ∃ b, codeOfBank b = c :=
  ⟨bankOfCode (BitVec.ofNat 2 c), by
    rw [(bankOfCode_eq_iff _ _).1 rfl, BitVec.toNat_ofNat, Nat.mod_eq_of_lt hc]⟩

/-- Format Z (30 R94): such a command is its opcode and zero bits. -/
theorem decode_eq_ok_iff_formatZ {w : CmdWord} (i : Instr) (hi : hasOperands w i)
    (hk : zerosFrom i = 8) :
    decode w = .ok i ↔ w.toNat % 256 = (opcodeOf i).toNat ∧ w.toNat / 2 ^ 8 = 0 := by
  rw [decode_eq_ok_iff, hk, and_iff_left hi]

/-- Format X (30 R96): any word with the opcode and the zero bits is some COF. -/
theorem exists_decode_cof_iff {w : CmdWord} :
    (∃ i j, decode w = .ok (.cof i j)) ↔ w.toNat % 256 = 2 ∧ w.toNat / 2 ^ 16 = 0 := by
  constructor
  · rintro ⟨i, j, h⟩
    obtain ⟨hop, hzero, -⟩ := decode_eq_ok_iff.1 h
    exact ⟨hop, hzero⟩
  · rintro ⟨hop, hzero⟩
    exact ⟨_, _, decode_eq_ok_iff.2 ⟨hop, hzero, rfl, rfl⟩⟩

/-- Format M (30 R95): any word with the opcode and the zero bits is some MMUL. -/
theorem exists_decode_mmul_iff {w : CmdWord} :
    (∃ sa sb rc, decode w = .ok (.mmul sa sb rc)) ↔ w.toNat % 256 = 8 ∧ w.toNat / 2 ^ 13 = 0 := by
  constructor
  · rintro ⟨sa, sb, rc, h⟩
    obtain ⟨hop, hzero, -⟩ := decode_eq_ok_iff.1 h
    exact ⟨hop, hzero⟩
  · rintro ⟨hop, hzero⟩
    obtain ⟨sa, hsa⟩ := exists_codeOfBank (show w.toNat / 256 % 4 < 4 by omega)
    obtain ⟨sb, hsb⟩ := exists_codeOfBank (show w.toNat / 1024 % 4 < 4 by omega)
    exact ⟨sa, sb, w.getLsbD 12, decode_eq_ok_iff.2 ⟨hop, hzero, hsa, hsb, getLsbD_eq_iff.1 rfl⟩⟩

/-- Settles O3: both sides say that the opcode field and the zero bits are those of the row. -/
theorem tableRowsDecideDecoding : Obligations.TableRowsDecideDecoding := by
  intro w
  have hZ (i : Instr) (hi : hasOperands w i) (hk : zerosFrom i = 8) :
      decode w = .ok i ↔ w &&& 0xFFFFFFFF = (opcodeOf i).setWidth 32 := by
    rw [decode_eq_ok_iff_formatZ i hi hk]
    exact (and_formatMask_eq_iff (k := 8) (by omega) (by omega)).symm
  refine ⟨hZ .det trivial rfl, ?_, hZ .adj trivial rfl, hZ .modinv trivial rfl,
    hZ .minv trivial rfl, ?_⟩
  · rw [exists_decode_cof_iff]
    exact (and_formatMask_eq_iff (k := 16) (op := 2) (by omega) (by omega)).symm
  · rw [exists_decode_mmul_iff]
    exact (and_formatMask_eq_iff (k := 13) (op := 8) (by omega) (by omega)).symm

/-! ## Illegal words (30 R99) -/

/-- How many values the bits above the opcode may take, by the opcode (30 R99). -/
def payloads : Nat → Nat
  | 0x01 => 1
  | 0x02 => 2 ^ 8
  | 0x03 => 1
  | 0x04 => 1
  | 0x05 => 1
  | 0x08 => 2 ^ 5
  | _ => 0

theorem payloads_opcodeOf (i : Instr) :
    payloads (opcodeOf i).toNat = 2 ^ (zerosFrom i - 8) := by
  cases i <;> rfl

theorem payloads_eq_zero {op : Nat} (h : 9 ≤ op) : payloads op = 0 := by
  unfold payloads
  split <;> omega

/-- The cases (a) to (d) of 30 R99: what stands above the opcode is more than the opcode allows. -/
theorem not_lt_payloads_iff {n : Nat} :
    ¬ n / 256 < payloads (n % 256) ↔
      n % 256 ∉ [0x01, 0x02, 0x03, 0x04, 0x05, 0x08] ∨
      (n % 256 ∈ [0x01, 0x03, 0x04, 0x05] ∧ n / 2 ^ 8 ≠ 0) ∨
      (n % 256 = 0x02 ∧ n / 2 ^ 16 ≠ 0) ∨ (n % 256 = 0x08 ∧ n / 2 ^ 13 ≠ 0) := by
  have h16 : n / 2 ^ 16 = n / 256 / 2 ^ 8 := by omega
  have h13 : n / 2 ^ 13 = n / 256 / 2 ^ 5 := by omega
  rw [h16, h13]
  generalize n % 256 = op
  unfold payloads
  split
  case h_7 h1 h2 h3 h4 h5 h8 =>
    exact iff_of_true (Nat.not_lt_zero _) (.inl (by simpa using ⟨h1, h2, h3, h4, h5, h8⟩))
  all_goals simp

/-- A word is legal exactly when its opcode allows what stands above the opcode. -/
theorem legal_iff {w : CmdWord} :
    (∃ i, decode w = .ok i) ↔ w.toNat / 256 < payloads (w.toNat % 256) := by
  constructor
  · rintro ⟨i, h⟩
    obtain ⟨hop, hzero, -⟩ := decode_eq_ok_iff.1 h
    rw [hop, payloads_opcodeOf]
    cases i <;> simp only [zerosFrom] at hzero ⊢ <;> omega
  · intro h
    unfold payloads at h
    split at h
    · next hop => exact ⟨_, (decode_eq_ok_iff_formatZ .det trivial rfl).2 ⟨hop, by omega⟩⟩
    · next hop =>
      obtain ⟨i, j, hcof⟩ := exists_decode_cof_iff.2 ⟨hop, by omega⟩
      exact ⟨_, hcof⟩
    · next hop => exact ⟨_, (decode_eq_ok_iff_formatZ .adj trivial rfl).2 ⟨hop, by omega⟩⟩
    · next hop => exact ⟨_, (decode_eq_ok_iff_formatZ .modinv trivial rfl).2 ⟨hop, by omega⟩⟩
    · next hop => exact ⟨_, (decode_eq_ok_iff_formatZ .minv trivial rfl).2 ⟨hop, by omega⟩⟩
    · next hop =>
      obtain ⟨sa, sb, rc, hmmul⟩ := exists_decode_mmul_iff.2 ⟨hop, by omega⟩
      exact ⟨_, hmmul⟩
    · exact absurd h (Nat.not_lt_zero _)

theorem payloads_le (op : Nat) : payloads op ≤ 256 := by
  unfold payloads
  split <;> omega

/-- The word with the opcode `p.1` and the value `p.2` above it. -/
def wordOfPayload (p : Σ _ : Nat, Nat) : CmdWord := BitVec.ofNat 32 (p.1 + 256 * p.2)

/-- The opcodes below 9, each with the values it allows above it. -/
def legalPayloads : Finset (Σ _ : Nat, Nat) :=
  (Finset.range 9).sigma fun op => Finset.range (payloads op)

theorem mem_legalPayloads {p : Σ _ : Nat, Nat} : p ∈ legalPayloads ↔ p.2 < payloads p.1 := by
  simp only [legalPayloads, Finset.mem_sigma, Finset.mem_range, and_iff_right_iff_imp]
  intro h
  by_contra hop
  rw [payloads_eq_zero (Nat.not_lt.1 hop)] at h
  omega

/-- The opcode and the value above it are the digits of the word to base 256. -/
theorem digits_of_mem_legalPayloads {p : Σ _ : Nat, Nat} (h : p ∈ legalPayloads) :
    (wordOfPayload p).toNat % 256 = p.1 ∧ (wordOfPayload p).toNat / 256 = p.2 := by
  have hop := Finset.mem_range.1 (Finset.mem_sigma.1 h).1
  have hupper := mem_legalPayloads.1 h
  have hle := payloads_le p.1
  rw [wordOfPayload, BitVec.toNat_ofNat]
  omega

theorem injOn_wordOfPayload : Set.InjOn wordOfPayload legalPayloads := by
  intro p hp q hq h
  obtain ⟨hop, hupper⟩ := digits_of_mem_legalPayloads hp
  obtain ⟨hop', hupper'⟩ := digits_of_mem_legalPayloads hq
  rw [h] at hop hupper
  exact Sigma.ext (hop.symm.trans hop') (heq_of_eq (hupper.symm.trans hupper'))

theorem mem_image_wordOfPayload {w : CmdWord} :
    w ∈ legalPayloads.image wordOfPayload ↔ ∃ i, decode w = .ok i := by
  rw [legal_iff, Finset.mem_image]
  constructor
  · rintro ⟨p, hp, rfl⟩
    obtain ⟨hop, hupper⟩ := digits_of_mem_legalPayloads hp
    rw [hop, hupper]
    exact mem_legalPayloads.1 hp
  · intro h
    refine ⟨⟨w.toNat % 256, w.toNat / 256⟩, mem_legalPayloads.2 h, ?_⟩
    rw [wordOfPayload, Nat.mod_add_div, BitVec.ofNat_toNat, BitVec.setWidth_eq]

/-- The legal words are counted opcode by opcode: 4 without operands, 256 COF, 32 MMUL (30 R99). -/
theorem card_legal_words : Nat.card { w : CmdWord // ∃ i, decode w = .ok i } = 292 := by
  rw [Nat.subtype_card _ fun w => mem_image_wordOfPayload,
    Finset.card_image_of_injOn injOn_wordOfPayload, legalPayloads, Finset.card_sigma]
  simp only [Finset.card_range]
  rfl

/-- An illegal word in flight completes with E_ILLEGAL, and the engine's turn is used up. -/
theorem step_of_illegal {s : State} (hm : engineMoves s) (h : ∀ i, decode s.cmdLatch ≠ .ok i) :
    step s = .next (raiseError .illegal (takeTurn s)) := by
  rw [step, mover_eq_engine_iff.2 hm]
  cases hd : decode s.cmdLatch with
  | ok i => exact absurd hd (h i)
  | error r => simp only [engineStep, takeTurn_cmdLatch, hd]

/-- The model's turn is the one the claims write out. -/
theorem takeTurn_eq_afterTurn (s : State) : takeTurn s = afterTurn s := by
  unfold takeTurn afterTurn
  split <;> rfl

/-- Settles O4: the illegal words are those whose upper bits the opcode does not allow, and the
legal ones are counted by opcode. -/
theorem illegalWordsFail : Obligations.IllegalWordsFail := by
  refine ⟨fun w => ?_, fun s hm h => ?_, card_legal_words⟩
  · simp only [ne_eq, ← not_exists, legal_iff]
    exact not_lt_payloads_iff
  · rw [step_of_illegal hm h, takeTurn_eq_afterTurn]
    rfl

/-! ## Scripts (30 R102, R103) -/

/-- Settles O1: the decoder run on the words. -/
theorem commandWordsDecode : Obligations.CommandWordsDecode := by
  unfold Obligations.CommandWordsDecode
  decide

/-- Settles O5: the encoder run on the five products. -/
theorem pseudoInstructionWords : Obligations.PseudoInstructionWords :=
  ⟨rfl, rfl, rfl, rfl, rfl⟩

/-- Settles O6: a position of a list with its value is an indexed value. -/
theorem loadMatrixWritesEveryEntry : Obligations.LoadMatrixWritesEveryEntry := by
  intro b rows op
  simp only [lineOps, ldmOps, List.mem_flatMap, List.mem_map, Prod.exists,
    List.mk_mem_zipIdx_iff_getElem?]
  constructor
  · rintro ⟨row, i, hrow, v, j, hv, rfl⟩
    exact ⟨i, j, row, v, hrow, hv, rfl⟩
  · rintro ⟨i, j, row, v, hrow, hv, rfl⟩
    exact ⟨row, i, hrow, v, j, hv, rfl⟩

end Sys2Proof.Machine

namespace Sys2Proof.Machine

/-! ## The determinant's own recursion (40 R120, R121) -/

/-- Leaving out row 0 takes every row from the one below (00 R9). -/
theorem minor_zero {k : Nat} (X : Mat (k + 1)) (c : Fin (k + 1)) :
    minor X 0 c =
      fun i j : Fin k => X i.succ (if c.val ≤ j.val then j.succ else j.castSucc) := by
  funext i j
  rw [minor, skip_eq_succAbove, Fin.succAbove_zero, skip]

/-- Settles O25: the definition with its sum, sign and minor written out. -/
theorem determinantRecursion : Obligations.DeterminantRecursion := by
  refine ⟨fun X => rfl, fun X => rfl, fun k X => ?_⟩
  simp only [matDet, sumFin_eq_sum, sgn_eq_pow, minor_zero]

/-! ## The laws of the determinant (40 R122) -/

theorem matDet_eq_sum_perm {k : Nat} (X : Mat (k + 1)) :
    matDet X = ∑ σ : Equiv.Perm (Fin (k + 1)), (Equiv.Perm.sign σ : Int) * ∏ i, X i (σ i) := by
  rw [matDet_eq_det, ← Matrix.det_transpose, Matrix.det_apply']
  rfl

theorem matDet_one (k : Nat) : matDet (fun i j : Fin (k + 1) => if i = j then 1 else 0) = 1 := by
  rw [matDet_eq_det]
  exact Matrix.det_one

theorem matDet_of_triangular {k : Nat} {X : Mat (k + 1)}
    (h : (∀ i j, i < j → X i j = 0) ∨ (∀ i j, j < i → X i j = 0)) :
    matDet X = ∏ i, X i i := by
  rw [matDet_eq_det]
  rcases h with hlower | hupper
  · exact Matrix.det_of_isLowerTriangular _ fun i j hij => hlower i j hij
  · exact Matrix.det_of_isUpperTriangular fun i j hij => hupper i j hij

/-- Proportional rows `r` and `r'` give a vector that is not 0 and that the matrix sends to 0: `a` at
`r` and `-b` at `r'`. -/
theorem matDet_of_proportional_rows {k : Nat} {X : Mat (k + 1)} {r r' : Fin (k + 1)} {a b : Int}
    (hab : a ≠ 0 ∨ b ≠ 0) (hr : r ≠ r') (h : ∀ j, a * X r j = b * X r' j) : matDet X = 0 := by
  rw [matDet_eq_det, ← Matrix.exists_vecMul_eq_zero_iff]
  refine ⟨Pi.single r a - Pi.single r' b, fun hv => ?_, ?_⟩
  · have ha : a = 0 := by simpa [hr] using congrFun hv r
    have hb : b = 0 := by simpa [hr.symm] using congrFun hv r'
    exact hab.elim (· ha) (· hb)
  · funext j
    simp [Matrix.sub_vecMul, h j]

/-- Settles O26: the four laws of every dimension, and the expansion of dimension 2 term by term. -/
theorem determinantLaws : Obligations.DeterminantLaws := by
  refine ⟨fun X => ?_, fun _ => matDet_eq_sum_perm, matDet_one, fun _ _ => matDet_of_triangular,
    fun _ _ _ _ _ _ => matDet_of_proportional_rows⟩
  simpa [Fin.sum_univ_two, matDet] using sub_eq_add_neg (X 0 0 * X 1 1) (X 0 1 * X 1 0)

/-! ## The walk over index lists (40 R123) -/

/-- One expansion of the walk is the sum over the columns still to come, each left out in turn; the
columns passed before shift the sign. -/
theorem walkRow_ofFn (A : Nat → Nat → Int) (r : Nat) (det : List Nat → Int) {n : Nat}
    (cols : Fin n → Nat) (before : List Nat) :
    walkDet.walkRow A r det before (List.ofFn cols) =
      ∑ c : Fin n, (-1) ^ (before.length + c.val) * A r (cols c) *
        det (before ++ (List.ofFn cols).eraseIdx c) := by
  induction n generalizing before with
  | zero => simp [walkDet.walkRow]
  | succ n ih =>
    rw [List.ofFn_succ, walkDet.walkRow, ih, Fin.sum_univ_succ, sgn_eq_pow]
    simp [add_assoc, add_comm 1]

/-- Leaving out a position of a list skips it, as a minor skips a column (00 R9). -/
theorem eraseIdx_ofFn {n : Nat} (f : Fin (n + 1) → Nat) (c : Fin (n + 1)) :
    (List.ofFn f).eraseIdx c = List.ofFn fun i => f (c.succAbove i) := by
  induction n with
  | zero => simp [Fin.fin_one_eq_zero c]
  | succ n ih =>
    cases c using Fin.cases with
    | zero => rw [List.ofFn_succ]; rfl
    | succ c =>
      rw [List.ofFn_succ, Fin.val_succ, List.eraseIdx_cons_succ, ih, List.ofFn_succ (n := n)]
      simp only [Fin.succ_succAbove_zero, Fin.succ_succAbove_succ]

/-- With a row below it, the first row is the one the walk expands along. -/
theorem walkDet_ofFn_succ (A : Nat → Nat → Int) {k : Nat} (rows : Fin (k + 2) → Nat)
    (cols : List Nat) :
    walkDet A (List.ofFn rows) cols =
      walkDet.walkRow A (rows 0) (walkDet A (List.ofFn fun i => rows i.succ)) [] cols := by
  rw [List.ofFn_succ (f := rows), List.ofFn_succ (f := fun i => rows i.succ), walkDet]

/-- The walk computes the determinant of the matrix that the lists pick out. -/
theorem walkDet_ofFn (A : Nat → Nat → Int) {k : Nat} (rows cols : Fin (k + 1) → Nat) :
    walkDet A (List.ofFn rows) (List.ofFn cols) =
      (Matrix.of fun i j => A (rows i) (cols j)).det := by
  induction k with
  | zero => simp [walkDet]
  | succ k ih =>
    rw [walkDet_ofFn_succ, walkRow_ofFn, Matrix.det_succ_row_zero]
    refine Finset.sum_congr rfl fun c _ => ?_
    rw [List.nil_append, eraseIdx_ofFn, ih, List.length_nil, Nat.zero_add]
    rfl

theorem eraseIdx_range {n : Nat} (c : Fin (n + 1)) :
    (List.range (n + 1)).eraseIdx c = List.ofFn fun i => (c.succAbove i).val := by
  rw [← List.map_coe_finRange_eq_range, ← List.ofFn_eq_map, eraseIdx_ofFn]

/-- Settles O27: a list without one index is a list of its own, so the minor is a case of the walk
over any two lists. -/
theorem indexWalkIsTheDeterminant : Obligations.IndexWalkIsTheDeterminant := by
  refine ⟨fun k A rows cols => walkDet_ofFn A rows cols, fun k A i j => ?_⟩
  rw [eraseIdx_range, eraseIdx_range, walkDet_ofFn]
  rfl

/-! ## How a command ends, as the claims write it (43 R198, 60 R232) -/

theorem fitsW_iff_fits64 {z : Int} : fitsW z = true ↔ fits64 z := by
  rw [fitsW_iff, fits64, SMIN, SMAX]
  norm_num
  omega

theorem exec_of_ok {i : Instr} {s u : State} (h : resultOf i s = .ok u) :
    exec i s = .next (endedOk u) := by
  rw [exec_eq_complete, h]
  rfl

theorem exec_of_error {i : Instr} {s : State} {e : ErrCode} (h : resultOf i s = .error e) :
    exec i s = .next (endedIn e.num s) := by
  rw [exec_eq_complete, h]
  rfl

/-! ## DET (40 R124) -/

theorem matDet_win (s : State) (b : Bank) (k : Nat) :
    matDet (win s b (k + 1)) = (bankMatrix s b (k + 1)).det :=
  matDet_eq_det _

theorem detResult_eq_shape {s : State} (h : dimension? s = none) :
    detResult s = .error .shape := by
  rw [detResult, h]

theorem detResult_eq_overflow {s : State} {k : Nat} (hk : dimension? s = some k)
    (h : ¬ fits64 (bankMatrix s .A (k + 1)).det) : detResult s = .error .overflow := by
  rw [← matDet_win, ← fitsW_iff_fits64] at h
  simp only [detResult, hk, if_neg h]

/-- Settles O30: DET ends with E_SHAPE, with E_OVERFLOW, or with the determinant in DET; `matDet` on
the window of A is the library's determinant. -/
theorem detWritesTheDeterminant : Obligations.DetWritesTheDeterminant := by
  refine ⟨commandWordsDecode.1, fun s => ⟨fun hn => ?_, fun k hn hk =>
    ⟨fun hfit => ?_, fun hfit => ?_⟩⟩⟩
  · exact exec_of_error (i := .det) (detResult_eq_shape (dimension?_eq_none.2 hn))
  · exact exec_of_error (i := .det)
      (detResult_eq_overflow (dimension?_eq_some.2 ⟨hn, hk⟩) hfit)
  · rw [← matDet_win] at hfit ⊢
    exact exec_of_ok (i := .det) (detResult_eq_ok.2
      ⟨k, dimension?_eq_some.2 ⟨hn, hk⟩, fitsW_iff_fits64.2 hfit, rfl⟩)

end Sys2Proof.Machine

namespace Sys2Proof.Machine

/-! ## The scalar solver (41 R145) -/

/-- A round replaces `(r0, r1)` by `(r1, r0 mod r1)`, which has the same gcd and a smaller second
part; the loop ends with the gcd where the fuel covers `r1`. -/
theorem euclid_fst_eq_gcd {fuel : Nat} {r0 r1 : Int} (t0 t1 : Int) (h0 : 0 ≤ r0) (h1 : 0 ≤ r1)
    (hfuel : r1 < fuel) : (euclid fuel r0 r1 t0 t1).1 = Int.gcd r0 r1 := by
  induction fuel generalizing r0 r1 t0 t1 with
  | zero => omega
  | succ fuel ih =>
    rw [euclid]
    split
    · next hr1 => simp [hr1, abs_of_nonneg h0]
    · next hr1 =>
      have hround : r0 - r0 / r1 * r1 = r0 % r1 := by rw [Int.emod_def, mul_comm]
      have hlt := Int.emod_lt_of_pos r0 (show 0 < r1 by omega)
      rw [hround, ih _ _ h1 (Int.emod_nonneg r0 hr1) (by omega), Int.gcd_comm, Int.gcd_emod]

/-- The solver answers exactly when the gcd is 1. -/
theorem modinvOrNone_eq_none_iff {a m : Int} (ha : 0 ≤ a) (hm : 0 ≤ m) :
    modinvOrNone a m = none ↔ Int.gcd a m ≠ 1 := by
  have hgcd : (euclid (a.toNat + 1) m a 0 1).1 = Int.gcd m a :=
    euclid_fst_eq_gcd 0 1 hm ha (by omega)
  simp only [modinvOrNone, hgcd, Int.gcd_comm m a]
  simp

/-- Two inverses of `a` mod m are congruent. -/
theorem modEq_of_mul_emod_eq_one {a m x y : Int} (hx : a * x % m = 1) (hy : a * y % m = 1) :
    x ≡ y [ZMOD m] := by
  have hone {z : Int} (hz : a * z % m = 1) : a * z ≡ 1 [ZMOD m] := by
    simpa [hz] using (Int.mod_modEq (a * z) m).symm
  calc x = x * 1 := (mul_one x).symm
    _ ≡ x * (a * y) [ZMOD m] := ((hone hy).mul_left x).symm
    _ = y * (a * x) := by ring
    _ ≡ y * 1 [ZMOD m] := (hone hx).mul_left y
    _ = y := mul_one y

/-- An inverse mod m makes `a` prime to m. -/
theorem gcd_eq_one_of_mul_emod_eq_one {a m x : Int} (h : a * x % m = 1) : Int.gcd a m = 1 := by
  rw [← Int.isCoprime_iff_gcd_eq_one]
  refine ⟨x, -(a * x / m), ?_⟩
  linarith [Int.emod_add_mul_ediv (a * x) m]

/-- The solver answers `x` exactly when `x` is the inverse of `a` in 1..m−1. -/
theorem modinvOrNone_eq_some_iff {a m x : Int} (ha : 0 ≤ a) (hm : 2 ≤ m) :
    modinvOrNone a m = some x ↔ 1 ≤ x ∧ x < m ∧ a * x % m = 1 := by
  have hrange {z : Int} (hz : modinvOrNone a m = some z) : 1 ≤ z ∧ z < m ∧ a * z % m = 1 := by
    have hinv := mul_of_modinvOrNone_eq_some hm hz
    simp only [modinvOrNone, Option.ite_none_right_eq_some, Option.some.injEq] at hz
    obtain ⟨-, rfl⟩ := hz
    refine ⟨(Int.emod_nonneg _ (by omega)).lt_of_ne fun hzero => ?_,
      Int.emod_lt_of_pos _ (by omega), hinv⟩
    simp [← hzero] at hinv
  refine ⟨hrange, fun ⟨hx1, hxm, hx⟩ => ?_⟩
  obtain ⟨z, hz⟩ := Option.ne_none_iff_exists'.1 fun hnone =>
    (modinvOrNone_eq_none_iff ha (by omega)).1 hnone (gcd_eq_one_of_mul_emod_eq_one hx)
  obtain ⟨hz1, hzm, hzinv⟩ := hrange hz
  have hzx : z % m = x % m := modEq_of_mul_emod_eq_one hzinv hx
  rw [Int.emod_eq_of_lt (by omega) hzm, Int.emod_eq_of_lt (by omega) hxm] at hzx
  rw [hz, hzx]

/-- Where the gcd is 1 there is an inverse in 1..m−1, and the solver answers it. -/
theorem exists_modinvOrNone_eq_some {a m : Int} (ha : 0 ≤ a) (hm : 2 ≤ m) (h : Int.gcd a m = 1) :
    ∃ x, modinvOrNone a m = some x ∧ 1 ≤ x ∧ x < m ∧ a * x % m = 1 := by
  obtain ⟨x, hx⟩ := Option.ne_none_iff_exists'.1 fun hnone =>
    (modinvOrNone_eq_none_iff ha (by omega)).1 hnone h
  exact ⟨x, hx, (modinvOrNone_eq_some_iff ha hm).1 hx⟩

/-- Settles O29: the answer is the one inverse in 1..m−1; 1 and m − 1 are their own inverses, since
`(m − 1)² = (m − 2) m + 1`. -/
theorem scalarInverse : Obligations.ScalarInverse := by
  refine fun m hm => ⟨fun a ha _ => ⟨(modinvOrNone_eq_none_iff ha (by omega)).2, fun hgcd => ?_⟩,
    ?_, ?_, ?_⟩
  · obtain ⟨x, hx, hx1, hxm, hinv⟩ := exists_modinvOrNone_eq_some ha hm hgcd
    refine ⟨x, hx, hx1, hxm, hinv, fun y hy1 hym hy => ?_⟩
    have hyx := (modinvOrNone_eq_some_iff ha hm).2 ⟨hy1, hym, hy⟩
    exact Option.some.inj (hyx.symm.trans hx)
  · rw [modinvOrNone_eq_none_iff le_rfl (by omega), Int.gcd_zero_left]
    omega
  · exact (modinvOrNone_eq_some_iff (by omega) hm).2
      ⟨le_rfl, by omega, by rw [mul_one, Int.emod_eq_of_lt (by omega) (by omega)]⟩
  · refine (modinvOrNone_eq_some_iff (by omega) hm).2 ⟨by omega, by omega, ?_⟩
    rw [show (m - 1) * (m - 1) = 1 + (m - 2) * m by ring, Int.add_mul_emod_self_right,
      Int.emod_eq_of_lt (by omega) (by omega)]

/-! ## Cofactor and adjugate (41 R140 to R143) -/

/-- Settles O28: the definition; in dimension 2 the closed form is the library's. -/
theorem adjugatePlacement : Obligations.AdjugatePlacement := by
  refine ⟨fun k X i j => rfl, fun X => rfl, fun X => ?_⟩
  rw [adjugate_eq_adjugate, Matrix.adjugate_fin_two]
  exact ⟨rfl, rfl, rfl, rfl⟩

/-- The cofactor is the signed determinant of the library's submatrix; in dimension 1 that is the
empty determinant (41 R141). -/
theorem cofactor_win (s : State) (b : Bank) {k : Nat} (i j : Fin (k + 1)) :
    cofactor (win s b (k + 1)) i j = (-1) ^ (i.val + j.val) *
      ((bankMatrix s b (k + 1)).submatrix i.succAbove j.succAbove).det := by
  rw [show cofactor (win s b (k + 1)) i j = adjugate (win s b (k + 1)) j i from rfl,
    adjugate_eq_adjugate, Matrix.adjugate_fin_succ_eq_det_submatrix]
  rfl

theorem adjugate_win (s : State) (b : Bank) (k : Nat) :
    adjugate (win s b (k + 1)) = (bankMatrix s b (k + 1)).adjugate :=
  adjugate_eq_adjugate _

/-- The overflow test of ADJ and MINV in the library's terms (60 R230). -/
theorem det_and_adjugate_fit_iff {s : State} {k : Nat} :
    fitsW (matDet (win s .A (k + 1))) = true ∧ allFit (adjugate (win s .A (k + 1))) = true ↔
      fits64 (bankMatrix s .A (k + 1)).det ∧
        ∀ i j, fits64 ((bankMatrix s .A (k + 1)).adjugate i j) := by
  rw [allFit_iff, matDet_win, adjugate_win]
  simp only [fitsW_iff_fits64]

theorem not_det_and_adjugate_fit {s : State} {k : Nat}
    (h : ¬ fits64 (bankMatrix s .A (k + 1)).det ∨
      ∃ i j, ¬ fits64 ((bankMatrix s .A (k + 1)).adjugate i j)) :
    ¬ (fitsW (matDet (win s .A (k + 1))) && allFit (adjugate (win s .A (k + 1)))) = true := by
  rw [Bool.and_eq_true, det_and_adjugate_fit_iff, not_and_or]
  simpa only [not_forall] using h

/-! ## COF (41 R142) -/

theorem cofResult_eq_shape {i j : Nat} {s : State} (h : dimension? s = none) :
    cofResult i j s = .error .shape := by
  rw [cofResult, h]

theorem cofResult_eq_shape_of_index {i j k : Nat} {s : State} (hk : dimension? s = some k)
    (h : ¬ (i < k + 1 ∧ j < k + 1)) : cofResult i j s = .error .shape := by
  simp only [cofResult, hk, dif_neg h]

theorem cofResult_eq_overflow {i j k : Nat} {s : State} (hk : dimension? s = some k)
    (h : i < k + 1 ∧ j < k + 1)
    (hfit : ¬ fits64 (cofactor (win s .A (k + 1)) ⟨i, h.1⟩ ⟨j, h.2⟩)) :
    cofResult i j s = .error .overflow := by
  rw [← fitsW_iff_fits64] at hfit
  simp only [cofResult, hk, dif_pos h, if_neg hfit]

/-- Settles O31: the word is the encoding of the command, and COF ends with E_SHAPE for n or an
index, with E_OVERFLOW, or with the cofactor in COFV. -/
theorem cofWritesTheCofactor : Obligations.CofWritesTheCofactor := by
  refine ⟨fun I J hI hJ => decode_eq_ok_iff_encode.2 ⟨by simp [Instr.wf, hI, hJ], rfl⟩,
    fun s I J => ⟨fun hn => ?_, fun k hn hk => ?_⟩⟩
  · exact exec_of_error (i := .cof I J) (cofResult_eq_shape (dimension?_eq_none.2 hn))
  have hdim : dimension? s = some k := dimension?_eq_some.2 ⟨hn, hk⟩
  refine ⟨fun hIJ => ?_, fun hI hJ => ?_⟩
  · exact exec_of_error (i := .cof I J) (cofResult_eq_shape_of_index hdim hIJ)
  have hcof := cofactor_win s .A (⟨I, hI⟩ : Fin (k + 1)) ⟨J, hJ⟩
  refine hcof ▸ ⟨fun hfit => ?_, fun hfit => ?_⟩
  · exact exec_of_error (i := .cof I J) (cofResult_eq_overflow hdim ⟨hI, hJ⟩ hfit)
  · exact exec_of_ok (i := .cof I J)
      (cofResult_eq_ok.2 ⟨k, hdim, ⟨hI, hJ⟩, fitsW_iff_fits64.2 hfit, rfl⟩)

/-! ## ADJ (41 R144) -/

theorem adjResult_eq_shape {s : State} (h : dimension? s = none) :
    adjResult s = .error .shape := by
  rw [adjResult, h]

theorem adjResult_eq_overflow {s : State} {k : Nat} (hk : dimension? s = some k)
    (h : ¬ fits64 (bankMatrix s .A (k + 1)).det ∨
      ∃ i j, ¬ fits64 ((bankMatrix s .A (k + 1)).adjugate i j)) :
    adjResult s = .error .overflow := by
  simp only [adjResult, hk, if_neg (not_det_and_adjugate_fit h)]

/-- Settles O32: ADJ ends with E_SHAPE, with E_OVERFLOW, or with the determinant in DET and the
adjugate in the window of ADJ, outside which no address changes. -/
theorem adjWritesTheAdjugate : Obligations.AdjWritesTheAdjugate := by
  obtain ⟨-, -, -, -, hdecode, -⟩ := commandWordsDecode
  refine ⟨hdecode, fun s => ⟨fun hn => ?_, fun k hn hk => ?_⟩⟩
  · exact exec_of_error (i := .adj) (adjResult_eq_shape (dimension?_eq_none.2 hn))
  have hdim : dimension? s = some k := dimension?_eq_some.2 ⟨hn, hk⟩
  refine ⟨fun hfit => ?_, fun hdet hadj => ?_⟩
  · exact exec_of_error (i := .adj) (adjResult_eq_overflow hdim hfit)
  · obtain ⟨hfitD, hfitG⟩ := det_and_adjugate_fit_iff.2 ⟨hdet, hadj⟩
    rw [← matDet_win, ← adjugate_win]
    exact ⟨_, exec_of_ok (i := .adj) (adjResult_eq_ok.2 ⟨k, hdim, hfitD, hfitG, rfl⟩), rfl,
      fun i j => congrFun (congrFun (win_of_writeWindow rfl (by omega) (allFit_iff.1 hfitG)) i) j,
      fun a ha => memRead_writeWindow_outside _ ha⟩

/-! ## MODINV (41 R146) -/

theorem modinvResult_eq_modulus {s : State} (h : modulus? s = none) :
    modinvResult s = .error .modulus := by
  rw [modinvResult, h]

theorem modinvResult_eq_notInv {s : State} {m : Int} (hm : modulus? s = some m)
    (h : modinvOrNone (toS s.det % m) m = none) : modinvResult s = .error .notInv := by
  simp only [modinvResult, hm, h]

/-- Settles O33: MODINV ends with E_MODULUS, with E_NOTINV, or with the residue in DETMOD and what the
scalar solver answers in DETINV. -/
theorem modinvWritesTheScalarInverse : Obligations.ModinvWritesTheScalarInverse := by
  obtain ⟨-, -, -, -, -, hdecode, -⟩ := commandWordsDecode
  refine ⟨hdecode, fun s => ⟨fun hm => ?_, fun hm => ?_⟩⟩
  · exact exec_of_error (i := .modinv) (modinvResult_eq_modulus (modulus?_eq_none.2 hm))
  have hmod : modulus? s = some s.m.toInt := modulus?_eq_some.2 ⟨rfl, hm⟩
  have hnonneg : 0 ≤ s.det.toInt % s.m.toInt := Int.emod_nonneg _ (by omega)
  refine ⟨fun hgcd => ?_, fun hgcd => ?_⟩
  · exact exec_of_error (i := .modinv) (modinvResult_eq_notInv hmod
      ((modinvOrNone_eq_none_iff hnonneg (by omega)).2 hgcd))
  · obtain ⟨x, hx, hx1, hxm, hinv⟩ := exists_modinvOrNone_eq_some hnonneg hm hgcd
    exact ⟨x, hx1, hxm, hinv,
      exec_of_ok (i := .modinv) (modinvResult_eq_ok.2 ⟨_, x, hmod, hx, rfl⟩)⟩

/-! ## MINV (41 R148) -/

theorem minvResult_eq_shape {s : State} (h : dimension? s = none) :
    minvResult s = .error .shape := by
  rw [minvResult, h]

theorem minvResult_eq_modulus {s : State} {k : Nat} (hk : dimension? s = some k)
    (h : modulus? s = none) : minvResult s = .error .modulus := by
  simp only [minvResult, hk, h]

theorem minvResult_eq_notInv {s : State} {k : Nat} {m : Int} (hk : dimension? s = some k)
    (hm : modulus? s = some m)
    (h : modinvOrNone ((bankMatrix s .A (k + 1)).det % m) m = none) :
    minvResult s = .error .notInv := by
  rw [← matDet_win] at h
  simp only [minvResult, hk, hm, h]

theorem minvResult_eq_overflow {s : State} {k : Nat} {m x : Int} (hk : dimension? s = some k)
    (hm : modulus? s = some m)
    (hx : modinvOrNone ((bankMatrix s .A (k + 1)).det % m) m = some x)
    (h : ¬ fits64 (bankMatrix s .A (k + 1)).det ∨
      ∃ i j, ¬ fits64 ((bankMatrix s .A (k + 1)).adjugate i j)) :
    minvResult s = .error .overflow := by
  rw [← matDet_win] at hx
  simp only [minvResult, hk, hm, hx, if_neg (not_det_and_adjugate_fit h)]

/-- What a MINV that succeeds at `s` leaves in `t` (41 R148): `x` is the scalar inverse of the
determinant of the key of dimension `k + 1`. -/
structure MinvDone (s t : State) (k : Nat) (x : Int) : Prop where
  modulus : 2 ≤ s.m.toInt
  inverse_pos : 1 ≤ x
  inverse_lt : x < s.m.toInt
  det_mul_inverse : (bankMatrix s .A (k + 1)).det % s.m.toInt * x % s.m.toInt = 1
  det_fits : fits64 (bankMatrix s .A (k + 1)).det
  state : t = endedOk { s with
    det := BitVec.ofInt 64 (bankMatrix s .A (k + 1)).det
    detmod := BitVec.ofInt 64 ((bankMatrix s .A (k + 1)).det % s.m.toInt)
    detinv := BitVec.ofInt 64 x
    mem := t.mem
    status := { s.status with invv := true } }
  adj : bankMatrix t .ADJ (k + 1) = (bankMatrix s .A (k + 1)).adjugate
  inv : bankMatrix t .INV (k + 1) =
    scaleMod x (bankMatrix s .A (k + 1)).adjugate s.m.toInt
  frame : ∀ a, (∀ i j : Fin (k + 1), a ≠ entryAddr .ADJ i j ∧ a ≠ entryAddr .INV i j) →
    memRead t.mem a = memRead s.mem a

/-- A window keeps what was written there when the window of another bank is written after it. -/
theorem win_of_writeWindow_writeWindow {t : State} {m : Memory} {b b' : Bank} {k : Nat} {X Y : Mat k}
    (ht : t.mem = writeWindow (writeWindow m b X) b' Y) (hb : b ≠ b') (hk : k ≤ 16)
    (hfit : ∀ i j, fitsW (X i j) = true) : win t b k = X := by
  funext i j
  rw [win, State.entry, ht, memRead_writeWindow_other hk hb _ (by omega) (by omega),
    memRead_writeWindow_inside hk, toS_toW (hfit i j)]

theorem minvDone_of_minvResult {s u : State} {k : Nat} (hn : s.n.toInt = k + 1)
    (h : minvResult s = .ok u) : ∃ x, MinvDone s (endedOk u) k x := by
  obtain ⟨k', m, x, hk, hm, hx, hdet, hadj, rfl⟩ := minvResult_eq_ok.1 h
  obtain ⟨hn', hk10⟩ := dimension?_eq_some.1 hk
  obtain ⟨rfl, hm2⟩ := modulus?_eq_some.1 hm
  obtain rfl : k' = k := by
    have : (k' : Int) + 1 = k + 1 := hn'.symm.trans hn
    omega
  have hpos : (0 : Int) < toS s.m := by omega
  obtain ⟨hx1, hxm, hinv⟩ :=
    (modinvOrNone_eq_some_iff (Int.emod_nonneg _ hpos.ne') hm2).1 hx
  rw [matDet_win] at hdet hinv ⊢
  rw [allFit_iff, adjugate_win] at hadj
  rw [adjugate_win]
  refine ⟨x, hm2, hx1, hxm, hinv, fitsW_iff_fits64.1 hdet, rfl,
    win_of_writeWindow_writeWindow rfl (by decide) (by omega) hadj,
    win_of_writeWindow rfl (by omega) fun i j =>
      fitsW_residue (Int.emod_nonneg _ hpos.ne') (Int.emod_lt_of_pos _ hpos),
    fun a ha => ?_⟩
  exact (memRead_writeWindow_outside _ fun i j => (ha i j).2).trans
    (memRead_writeWindow_outside _ fun i j => (ha i j).1)

/-- Settles O34: MINV makes its four checks in order, and a MINV that passes them leaves what
`MinvDone` says. -/
theorem minvWritesTheInverse : Obligations.MinvWritesTheInverse := by
  obtain ⟨-, -, -, -, -, -, hdecode, -⟩ := commandWordsDecode
  refine ⟨hdecode, fun s => ⟨fun hn => ?_, fun k hn hk => ?_⟩⟩
  · exact exec_of_error (i := .minv) (minvResult_eq_shape (dimension?_eq_none.2 hn))
  have hdim : dimension? s = some k := dimension?_eq_some.2 ⟨hn, hk⟩
  refine ⟨fun hm => ?_, fun hm => ?_⟩
  · exact exec_of_error (i := .minv) (minvResult_eq_modulus hdim (modulus?_eq_none.2 hm))
  have hmod : modulus? s = some s.m.toInt := modulus?_eq_some.2 ⟨rfl, hm⟩
  have hnonneg : 0 ≤ (bankMatrix s .A (k + 1)).det % s.m.toInt := Int.emod_nonneg _ (by omega)
  refine ⟨fun hgcd => ?_, fun hgcd hfit => ?_, fun hgcd hdet hadj => ?_⟩
  · exact exec_of_error (i := .minv) (minvResult_eq_notInv hdim hmod
      ((modinvOrNone_eq_none_iff hnonneg (by omega)).2 hgcd))
  · obtain ⟨x, hx, -⟩ := exists_modinvOrNone_eq_some hnonneg hm hgcd
    exact exec_of_error (i := .minv) (minvResult_eq_overflow hdim hmod hx hfit)
  · obtain ⟨x, hx, -⟩ := exists_modinvOrNone_eq_some hnonneg hm hgcd
    rw [← matDet_win] at hx
    obtain ⟨hfitD, hfitG⟩ := det_and_adjugate_fit_iff.2 ⟨hdet, hadj⟩
    have hok := minvResult_eq_ok.2 ⟨k, _, x, hdim, hmod, hx, hfitD, hfitG, rfl⟩
    obtain ⟨y, hdone⟩ := minvDone_of_minvResult hn hok
    exact ⟨_, y, hdone.inverse_pos, hdone.inverse_lt, hdone.det_mul_inverse,
      exec_of_ok (i := .minv) hok, hdone.state, fun i j => congrFun (congrFun hdone.adj i) j,
      fun i j => congrFun (congrFun hdone.inv i) j, hdone.frame⟩

/-! ## The laws of the inverse (41 R150, R152) -/

/-- A command that ends without an error had a result. -/
theorem exists_resultOf_of_not_err {i : Instr} {s t : State} (h : exec i s = .next t)
    (herr : t.status.err = false) : ∃ u, resultOf i s = .ok u ∧ t = endedOk u := by
  rw [exec_eq_complete, complete_eq_next] at h
  obtain hok | ⟨e, -, rfl⟩ := h
  · exact hok
  · cases herr

theorem exists_minvDone {s t : State} {k : Nat} (hn : s.n.toInt = k + 1)
    (h : exec .minv s = .next t) (herr : t.status.err = false) : ∃ x, MinvDone s t k x := by
  obtain ⟨u, hok, rfl⟩ := exists_resultOf_of_not_err h herr
  exact minvDone_of_minvResult hn hok

/-- A matrix of integers is the identity mod m exactly when its image over Z/m is the identity. -/
theorem forall_emod_eq_one_iff {n m : Nat} (hm : 2 ≤ m) (M : Matrix (Fin n) (Fin n) Int) :
    (∀ i j, M i j % m = if i = j then 1 else 0) ↔ M.map (Int.castRingHom (ZMod m)) = 1 := by
  rw [← Matrix.ext_iff]
  refine forall₂_congr fun i j => ?_
  have hentry : (M i j : ZMod m) = ((if i = j then 1 else 0 : Int) : ZMod m) ↔
      M i j % m = if i = j then 1 else 0 := by
    rw [ZMod.intCast_eq_intCast_iff']
    split
    · rw [Int.emod_eq_of_lt (a := 1) (by omega) (by omega)]
    · rw [Int.zero_emod]
  rw [← hentry, Matrix.map_apply, Matrix.one_apply]
  simp

/-- A left inverse mod m is a right inverse mod m: matrices over Z/m are a ring in which this holds. -/
theorem mul_emod_eq_one_comm {n : Nat} {m : Int} (hm : 2 ≤ m) {P Q : Matrix (Fin n) (Fin n) Int}
    (h : ∀ i j, (P * Q) i j % m = if i = j then 1 else 0) (i j : Fin n) :
    (Q * P) i j % m = if i = j then 1 else 0 := by
  lift m to Nat using by omega
  have hm' : 2 ≤ m := by omega
  rw [forall_emod_eq_one_iff hm', Matrix.map_mul, mul_eq_one_comm, ← Matrix.map_mul,
    ← forall_emod_eq_one_iff hm'] at h
  exact h i j

theorem MinvDone.inv_mul {s t : State} {k : Nat} {x : Int} (h : MinvDone s t k x)
    (i j : Fin (k + 1)) :
    (bankMatrix t .INV (k + 1) * bankMatrix s .A (k + 1)) i j % s.m.toInt =
      if i = j then 1 else 0 := by
  have hx := h.det_mul_inverse
  rw [← matDet_win] at hx
  rw [h.inv, ← adjugate_win, ← matMul_scaleMod_adjugate hx i j, matMul_eq_mul]
  rfl

/-- Settles O40: the scaled adjugate is a left inverse mod m, so it is a right inverse too; the second
law is a check of MINV, the third the library's. -/
theorem inverseLaws : Obligations.InverseLaws := by
  obtain ⟨-, hminv⟩ := minvWritesTheInverse
  refine ⟨fun s t k hn h herr i j => ?_, fun s k hn hk hm => ?_, fun d m _ => Int.gcd_emod d m⟩
  · obtain ⟨x, hdone⟩ := exists_minvDone hn h herr
    have hm := hdone.modulus
    have hentry : (t.entry .INV i j).toInt = x * _ % s.m.toInt :=
      congrFun (congrFun hdone.inv i) j
    rw [hentry]
    exact ⟨hdone.inv_mul i j, mul_emod_eq_one_comm hm hdone.inv_mul i j,
      Int.emod_nonneg _ (by omega), Int.emod_lt_of_pos _ (by omega)⟩
  · exact (((hminv s).2 k hn hk).2 hm).1

theorem MinvDone.det_ne_zero {s t : State} {k : Nat} {x : Int} (h : MinvDone s t k x) :
    (bankMatrix s .A (k + 1)).det ≠ 0 := by
  intro hzero
  have hx := h.det_mul_inverse
  simp [hzero] at hx

theorem MinvDone.det_toInt {s t : State} {k : Nat} {x : Int} (h : MinvDone s t k x) :
    t.det.toInt = (bankMatrix s .A (k + 1)).det := by
  rw [h.state]
  exact toS_toW (fitsW_iff_fits64.2 h.det_fits)

/-- The adjugate times the key is the determinant times the identity (41 R150). -/
theorem MinvDone.adj_mul {s t : State} {k : Nat} {x : Int} (h : MinvDone s t k x)
    (i j : Fin (k + 1)) :
    ∑ l : Fin (k + 1), (t.entry .ADJ i l).toInt * (s.entry .A l j).toInt =
      (bankMatrix s .A (k + 1)).det * if i = j then 1 else 0 := by
  have hmul := congrFun (congrFun (Matrix.adjugate_mul (bankMatrix s .A (k + 1))) i) j
  rw [← h.adj, Matrix.mul_apply, Matrix.smul_apply, Matrix.one_apply] at hmul
  exact hmul

/-- Settles O41: the determinant is not 0, as it has an inverse mod m, so the law of the adjugate can
be divided by it. -/
theorem rationalInverse : Obligations.RationalInverse := by
  intro s t k hn h herr
  obtain ⟨x, hdone⟩ := exists_minvDone hn h herr
  have hdet := hdone.det_ne_zero
  rw [hdone.det_toInt]
  refine ⟨hdet, fun i j => ?_⟩
  simp only [div_mul_eq_mul_div, ← Finset.sum_div]
  rw [div_eq_iff (Int.cast_ne_zero.2 hdet), mul_comm]
  exact_mod_cast hdone.adj_mul i j

end Sys2Proof.Machine

namespace Sys2Proof.Machine

/-! ## MMUL (42 R172) -/

theorem matMul_win (s : State) (b b' : Bank) (k : Nat) :
    matMul (win s b k) (win s b' k) = bankMatrix s b k * bankMatrix s b' k :=
  matMul_eq_mul _ _

/-- The overflow test of MMUL in the library's terms (60 R230). -/
theorem allFit_matMul_win_iff {s : State} {b b' : Bank} {k : Nat} :
    allFit (matMul (win s b k) (win s b' k)) = true ↔
      ∀ i j, fits64 ((bankMatrix s b k * bankMatrix s b' k) i j) := by
  rw [allFit_iff, matMul_win]
  simp only [fitsW_iff_fits64]

/-- The range test of the right operand, as the claims write it (42 R174). -/
theorem allEntries_inRange_win_iff {s : State} {b : Bank} {k : Nat} {m : Int} :
    allEntries (inRange m) (win s b k) = true ↔
      ∀ i j, 0 ≤ bankMatrix s b k i j ∧ bankMatrix s b k i j < m := by
  simp only [allEntries_iff, inRange_iff]
  rfl

/-- The range check passes where no entry is outside, or where it is not asked for. -/
theorem inRange_of_not_outside {s : State} {b : Bank} {k : Nat} {m : Int} {rc : Bool}
    (h : ¬ (rc = true ∧ ∃ i j, ¬ (0 ≤ bankMatrix s b k i j ∧ bankMatrix s b k i j < m)))
    (hrc : rc = true) : allEntries (inRange m) (win s b k) = true := by
  rw [allEntries_inRange_win_iff]
  simpa only [hrc, true_and, not_exists, not_not] using h

section MmulErrors

variable {sa sb : BankSel} {rc : Bool} {s : State} {k : Nat} {m : Int}

theorem mmulResult_eq_shape (h : dimension? s = none) : mmulResult sa sb rc s = .error .shape := by
  rw [mmulResult, h]

theorem mmulResult_eq_modulus (hk : dimension? s = some k) (h : modulus? s = none) :
    mmulResult sa sb rc s = .error .modulus := by
  simp only [mmulResult, hk, h]

theorem mmulResult_eq_noInv (hk : dimension? s = some k) (hm : modulus? s = some m)
    (h : (sa = .INV ∨ sb = .INV) ∧ s.status.invv = false) :
    mmulResult sa sb rc s = .error .noInv := by
  simp only [mmulResult, hk, hm, if_pos (inverseMissing_iff.2 h)]

theorem mmulResult_eq_range (hk : dimension? s = some k) (hm : modulus? s = some m)
    (hinv : ¬ ((sa = .INV ∨ sb = .INV) ∧ s.status.invv = false))
    (hrc : rc = true)
    (h : ∃ i j, ¬ (0 ≤ bankMatrix s (selBank sb) (k + 1) i j ∧
      bankMatrix s (selBank sb) (k + 1) i j < m)) :
    mmulResult sa sb rc s = .error .range := by
  rw [← inverseMissing_iff] at hinv
  have hout : allEntries (inRange m) (win s (selBank sb) (k + 1)) = false := by
    rw [← Bool.not_eq_true, allEntries_inRange_win_iff]
    simpa only [not_forall] using h
  simp only [mmulResult, hk, hm, if_neg hinv, hrc, hout, Bool.not_false, Bool.and_true, if_pos]

theorem mmulResult_eq_overflow (hk : dimension? s = some k) (hm : modulus? s = some m)
    (hinv : ¬ ((sa = .INV ∨ sb = .INV) ∧ s.status.invv = false))
    (hrange : rc = true → allEntries (inRange m) (win s (selBank sb) (k + 1)) = true)
    (h : ∃ i j, ¬ fits64
      ((bankMatrix s (selBank sa) (k + 1) * bankMatrix s (selBank sb) (k + 1)) i j)) :
    mmulResult sa sb rc s = .error .overflow := by
  rw [← inverseMissing_iff] at hinv
  have hpass : ¬ (rc && !allEntries (inRange m) (win s (selBank sb) (k + 1))) = true := by
    simpa using hrange
  have hbig : ¬ allFit (matMul (win s (selBank sa) (k + 1)) (win s (selBank sb) (k + 1))) =
      true := by
    rw [allFit_matMul_win_iff]
    simpa only [not_forall] using h
  simp only [mmulResult, hk, hm, if_neg hinv, if_neg hpass, if_neg hbig]

end MmulErrors

/-- What a MMUL of the banks `b` and `b'` that succeeds at `s` leaves in `t` (42 R172): the product of
dimension `k + 1` in P and its residues in C, nothing else changed but the end of the command. -/
structure MmulDone (s t : State) (b b' : Bank) (k : Nat) : Prop where
  dim_le : k + 1 ≤ 10
  modulus : 2 ≤ s.m.toInt
  state : t = endedOk { s with mem := t.mem }
  product : bankMatrix t .P (k + 1) = bankMatrix s b (k + 1) * bankMatrix s b' (k + 1)
  residues : bankMatrix t .C (k + 1) =
    (bankMatrix s b (k + 1) * bankMatrix s b' (k + 1)).map (· % s.m.toInt)
  frame : ∀ a, (∀ i j : Fin (k + 1), a ≠ entryAddr .P i j ∧ a ≠ entryAddr .C i j) →
    memRead t.mem a = memRead s.mem a

theorem mmulDone_of_mmulResult {sa sb : BankSel} {rc : Bool} {s u : State} {k : Nat}
    (hn : s.n.toInt = k + 1) (h : mmulResult sa sb rc s = .ok u) :
    MmulDone s (endedOk u) (selBank sa) (selBank sb) k := by
  obtain ⟨k', m, hk, hm, -, -, hfit, rfl⟩ := mmulResult_eq_ok.1 h
  obtain ⟨hn', hk10⟩ := dimension?_eq_some.1 hk
  obtain ⟨rfl, hm2⟩ := modulus?_eq_some.1 hm
  obtain rfl : k' = k := by
    have : (k' : Int) + 1 = k + 1 := hn'.symm.trans hn
    omega
  have hpos : (0 : Int) < toS s.m := by omega
  rw [allFit_iff, matMul_win] at hfit
  rw [matMul_win]
  refine ⟨hk10, hm2, rfl, win_of_writeWindow_writeWindow rfl (by decide) (by omega) hfit,
    win_of_writeWindow rfl (by omega) fun i j =>
      fitsW_residue (Int.emod_nonneg _ hpos.ne') (Int.emod_lt_of_pos _ hpos),
    fun a ha => ?_⟩
  exact (memRead_writeWindow_outside _ fun i j => (ha i j).2).trans
    (memRead_writeWindow_outside _ fun i j => (ha i j).1)

theorem mmulDone_of_exec {sa sb : BankSel} {rc : Bool} {s t : State} {k : Nat}
    (hn : s.n.toInt = k + 1) (h : exec (.mmul sa sb rc) s = .next t) (herr : t.status.err = false) :
    MmulDone s t (selBank sa) (selBank sb) k := by
  obtain ⟨u, hok, rfl⟩ := exists_resultOf_of_not_err h herr
  exact mmulDone_of_mmulResult hn hok

/-- The codes of the banks in the order of 30 R98. -/
theorem codeOfBank_table (x : Fin 4) : codeOfBank (![.A, .B, .C, .INV] x) = x.val := by
  revert x; decide

theorem decode_mmul_word (x y : Fin 4) (r : Bool) :
    decode (BitVec.ofNat 32 (0x00000008 + 256 * x.val + 1024 * y.val + 4096 * r.toNat)) =
      .ok (.mmul (![.A, .B, .C, .INV] x) (![.A, .B, .C, .INV] y) r) := by
  refine decode_eq_ok_iff_encode.2 ⟨rfl, ?_⟩
  rw [encode, codeOfBank_table, codeOfBank_table]

/-- Settles O35: the word is the encoding of the command; MMUL makes its five checks in order, and a
MMUL that passes them leaves what `MmulDone` says. -/
theorem mmulWritesTheProduct : Obligations.MmulWritesTheProduct := by
  refine ⟨decode_mmul_word, fun s sa sb rc => ⟨fun hn => ?_, fun k hn hk => ?_⟩⟩
  · exact exec_of_error (i := .mmul sa sb rc) (mmulResult_eq_shape (dimension?_eq_none.2 hn))
  have hdim : dimension? s = some k := dimension?_eq_some.2 ⟨hn, hk⟩
  refine ⟨fun hm => ?_, fun hm => ?_⟩
  · exact exec_of_error (i := .mmul sa sb rc)
      (mmulResult_eq_modulus hdim (modulus?_eq_none.2 hm))
  have hmod : modulus? s = some s.m.toInt := modulus?_eq_some.2 ⟨rfl, hm⟩
  refine ⟨fun hinv => ?_, fun hinv ⟨hrc, hout⟩ => ?_, fun hinv hin hfit => ?_,
    fun hinv hin hfit => ?_⟩
  · exact exec_of_error (i := .mmul sa sb rc) (mmulResult_eq_noInv hdim hmod hinv)
  · exact exec_of_error (i := .mmul sa sb rc) (mmulResult_eq_range hdim hmod hinv hrc hout)
  · exact exec_of_error (i := .mmul sa sb rc)
      (mmulResult_eq_overflow hdim hmod hinv (inRange_of_not_outside hin) hfit)
  · have hok := (mmulResult_eq_ok (rc := rc)).2 ⟨k, _, hdim, hmod,
      Bool.not_eq_true _ ▸ mt inverseMissing_iff.1 hinv, inRange_of_not_outside hin,
      allFit_matMul_win_iff.2 hfit, rfl⟩
    have hdone := mmulDone_of_mmulResult hn hok
    exact ⟨_, exec_of_ok (i := .mmul sa sb rc) hok, hdone.state,
      fun i j => congrFun (congrFun hdone.product i) j,
      fun i j => congrFun (congrFun hdone.residues i) j, hdone.frame⟩

namespace MmulDone

variable {s t : State} {b b' : Bank} {k : Nat}

theorem n_eq (h : MmulDone s t b b' k) : t.n = s.n := by rw [h.state]; rfl
theorem m_eq (h : MmulDone s t b b' k) : t.m = s.m := by rw [h.state]; rfl

/-- The residues are codes in [0, m), whatever the operands were (42 R176). -/
theorem residue_inRange (h : MmulDone s t b b' k) (i j : Fin (k + 1)) :
    0 ≤ bankMatrix t .C (k + 1) i j ∧ bankMatrix t .C (k + 1) i j < s.m.toInt := by
  have hm := h.modulus
  rw [h.residues, Matrix.map_apply]
  exact ⟨Int.emod_nonneg _ (by omega), Int.emod_lt_of_pos _ (by omega)⟩

/-- A MMUL leaves the windows of the other banks alone. -/
theorem bankMatrix_eq (h : MmulDone s t b b' k) {c : Bank} (hP : c ≠ .P) (hC : c ≠ .C) :
    bankMatrix t c (k + 1) = bankMatrix s c (k + 1) := by
  have hk := h.dim_le
  funext i j
  have hother {d : Bank} (hd : c ≠ d) (i' j' : Fin (k + 1)) :
      entryAddr c i j ≠ entryAddr d i' j' := fun e =>
    hd ((entryAddr_inj (by omega) (by omega) (by omega) (by omega)).1 e).1
  exact congrArg BitVec.toInt (h.frame _ fun i' j' => ⟨hother hP i' j', hother hC i' j'⟩)

end MmulDone

/-! ## The product is reduced (42 R176) -/

/-- Settles O42: the window of C holds residues of the same m, so the next MMUL takes one of its ends
other than E_RANGE. -/
theorem productIsReduced : Obligations.ProductIsReduced := by
  intro s t sa sb rc k hn h herr
  have hdone := mmulDone_of_exec hn h herr
  refine ⟨hdone.residue_inRange, ?_⟩
  have hin : ¬ (true = true ∧ ∃ i j, ¬ (0 ≤ bankMatrix t .C (k + 1) i j ∧
      bankMatrix t .C (k + 1) i j < t.m.toInt)) := by
    rintro ⟨-, i, j, hout⟩
    rw [hdone.m_eq] at hout
    exact hout (hdone.residue_inRange i j)
  obtain ⟨-, hmmul⟩ := mmulWritesTheProduct
  obtain ⟨-, hlegal⟩ := hmmul t .INV .C true
  obtain ⟨-, hends⟩ := hlegal k (hdone.n_eq ▸ hn) hdone.dim_le
  obtain ⟨hnoInv, -, hoverflow, hok⟩ := hends (hdone.m_eq ▸ hdone.modulus)
  by_cases hinvv : t.status.invv = false
  · exact ⟨_, hnoInv ⟨.inl rfl, hinvv⟩, (by decide : (4 : BitVec 4) ≠ 5)⟩
  by_cases hfit : ∃ i j, ¬ fits64
      ((bankMatrix t (selBank .INV) (k + 1) * bankMatrix t (selBank .C) (k + 1)) i j)
  · exact ⟨_, hoverflow (hinvv ·.2) hin hfit, (by decide : (7 : BitVec 4) ≠ 5)⟩
  · simp only [not_exists, not_not] at hfit
    obtain ⟨u, hu, hstate, -⟩ := hok (hinvv ·.2) hin hfit
    rw [hstate] at hu
    exact ⟨_, hu, (by decide : (0 : BitVec 4) ≠ 5)⟩

/-! ## The round trip (42 R177) -/

/-- A left inverse mod m of `A` takes the residues of `A * B` back to `B`, mod m: over Z/m this is
associativity. -/
theorem mul_residues_emod {n : Nat} {m : Int} (hm : 2 ≤ m) {K A B : Matrix (Fin n) (Fin n) Int}
    (h : ∀ i j, (K * A) i j % m = if i = j then 1 else 0) (i j : Fin n) :
    (K * (A * B).map (· % m)) i j % m = B i j % m := by
  lift m to Nat using by omega
  rw [forall_emod_eq_one_iff (by omega)] at h
  have hred : ((A * B).map (· % (m : Int))).map (Int.castRingHom (ZMod m)) =
      (A * B).map (Int.castRingHom (ZMod m)) := by
    ext i j
    simp
  have hback : (K * (A * B).map (· % (m : Int))).map (Int.castRingHom (ZMod m)) =
      B.map (Int.castRingHom (ZMod m)) := by
    rw [Matrix.map_mul, hred, ← Matrix.map_mul, ← mul_assoc, Matrix.map_mul, h, one_mul]
  exact (ZMod.intCast_eq_intCast_iff' _ _ _).1 (congrFun (congrFun hback i) j)

/-- What `inverseHolds` says, in the library's terms, of the dimension N names. -/
theorem inv_mul_key_of_inverseHolds {s : State} (h : inverseHolds s) :
    ∃ k : Nat, s.n.toInt = k + 1 ∧ ∀ i j : Fin (k + 1),
      (bankMatrix s .INV (k + 1) * bankMatrix s .A (k + 1)) i j % s.m.toInt =
        if i = j then 1 else 0 := by
  obtain ⟨k, hn, -, -, -, hmul⟩ := h
  rw [matMul_win] at hmul
  exact ⟨k, hn, hmul⟩

/-- Settles O43: the second MMUL multiplies the inverse, which the first leaves in place, with the
residues of the first product. -/
theorem decryptRecoversThePlaintext : Obligations.DecryptRecoversThePlaintext := by
  refine ⟨fun s t h herr => ?_, fun s t u rc1 rc2 _ hholds ht hterr hu huerr => ?_⟩
  · obtain ⟨v, hok, rfl⟩ := exists_resultOf_of_not_err h herr
    have hholds := inverseHolds_of_minvResult hok
    obtain ⟨k, m, di, -, -, -, -, -, rfl⟩ := minvResult_eq_ok.1 hok
    exact ⟨rfl, inverseHolds_of_sameKey (sameKey_of_mem rfl rfl rfl) hholds⟩
  · obtain ⟨k, hn, hinverse⟩ := inv_mul_key_of_inverseHolds hholds
    have hfirst : MmulDone s t .A .B k := mmulDone_of_exec hn ht hterr
    have hsecond : MmulDone t u .INV .C k := mmulDone_of_exec (hfirst.n_eq ▸ hn) hu huerr
    have hC (i j : Fin (k + 1)) :
        bankMatrix u .C (k + 1) i j = bankMatrix s .B (k + 1) i j % s.m.toInt := by
      rw [hsecond.residues, Matrix.map_apply, hfirst.m_eq, hfirst.residues,
        hfirst.bankMatrix_eq (by decide) (by decide), mul_residues_emod hfirst.modulus hinverse]
    have hback (i j : Nat) (hi : (i : Int) < s.n.toInt) (hj : (j : Int) < s.n.toInt) :
        (u.entry .C i j).toInt = (s.entry .B i j).toInt % s.m.toInt :=
      hC ⟨i, by omega⟩ ⟨j, by omega⟩
    refine ⟨hback, fun hin i j hi hj => BitVec.eq_of_toInt_eq ?_⟩
    obtain ⟨h0, hlt⟩ := hin i j hi hj
    rw [hback i j hi hj, Int.emod_eq_of_lt h0 hlt]

end Sys2Proof.Machine

namespace Sys2Proof.Machine

/-! ## What an address names (20 R61) -/

theorem addrTarget_reg {a : Addr} {r : Reg} (ha : a.toNat = (regAddr r).toNat) :
    addrTarget a = .reg r := by
  rw [BitVec.eq_of_toNat_eq ha]
  cases r <;> rfl

/-- The map answers `reserved` exactly at the addresses of 10 R39. -/
theorem addrTarget_reserved_iff (a : Addr) : addrTarget a = .reserved ↔ reservedAddr a := by
  unfold reservedAddr
  rcases addrTarget_cases a with ⟨r, hr, ht⟩ | ⟨b, i, j, hi, hj, ha, ht⟩ | ⟨hlo, hres, ht⟩
  · obtain ⟨-, -, hlt⟩ := regAt_key hr
    simp only [ht, reduceCtorEq, false_iff]
    omega
  · obtain ⟨p, h1, h6, hp, -⟩ := bankBase_eq b
    rw [entryAddr, hp, stride_eq] at ha
    simp only [ht, reduceCtorEq, false_iff]
    omega
  · simp only [ht, true_iff]
    omega

/-- An address of the banks that is not reserved is an implemented entry of the bank whose range it
is in. -/
theorem exists_addrTarget_entry {a : Addr} (hres : ¬ reservedAddr a) (ha : 0x100 ≤ a.toNat) :
    ∃ b i j, addrTarget a = .entry b i j ∧ bankBase b ≤ a.toNat ∧ a.toNat < bankBase b + 0x100 := by
  rcases addrTarget_cases a with ⟨r, hr, -⟩ | ⟨b, i, j, hi, hj, hab, ht⟩ | ⟨-, -, ht⟩
  · obtain ⟨-, -, hlt⟩ := regAt_key hr
    omega
  · refine ⟨b, i, j, ht, ?_⟩
    rw [hab, entryAddr, stride_eq]
    omega
  · exact absurd ((addrTarget_reserved_iff a).1 ht) hres

/-! ## A host read (43 R191) -/

/-- A read is exact but for result state while BUSY = 1 (70 R270). -/
theorem unspecified_eq_false_iff {s : State} {t : Target} :
    unspecified s t = false ↔ s.status.busy = false ∨ isResult t = false :=
  Bool.and_eq_false_iff

section ExactReads

variable {s : State} {a : Addr} {t : Target}

/-- The word of an exact read is the one its address names. -/
theorem portRead_of_exact (ha : addrTarget a = t) (h : s.status.busy = false ∨ isResult t = false) :
    portRead s a = s.readTarget t := by
  rw [portRead, ha, unspecified_eq_false_iff.2 h]
  rfl

/-- An exact read uses up no draw. -/
theorem observe_of_exact (ha : addrTarget a = t) (h : s.status.busy = false ∨ isResult t = false) :
    observe a s = { s with host := { s.host with reads := (a, s.readTarget t) :: s.host.reads } } := by
  rw [observe, portRead_of_exact ha h, ha, unspecified_eq_false_iff.2 h]
  rfl

theorem portRead_reg {r : Reg} (ha : a.toNat = (regAddr r).toNat)
    (h : s.status.busy = false ∨ isResult (.reg r) = false) : portRead s a = s.readReg r :=
  portRead_of_exact (addrTarget_reg ha) h

theorem portRead_entry {b : Bank} {i j : Nat} (hi : i < 10) (hj : j < 10)
    (ha : a.toNat = entryAddr b i j) (h : s.status.busy = false ∨ isResult (.entry b i j) = false) :
    portRead s a = s.entry b i j :=
  portRead_of_exact (addrTarget_entry hi hj ha) h

theorem portRead_reserved (ha : reservedAddr a) : portRead s a = 0 :=
  portRead_of_exact ((addrTarget_reserved_iff a).2 ha) (.inr rfl)

end ExactReads

/-- A poll of STATUS records the word of STATUS, busy or idle. -/
theorem observe_statusWord (s : State) : observe (regAddr .STATUS) s =
    { s with host := { s.host with reads := (0x003, s.status.word) :: s.host.reads } } :=
  observe_of_exact (t := .reg .STATUS) rfl (.inr rfl)

theorem portRead_takeTurn (s : State) (a : Addr) : portRead (takeTurn s) a = portRead s a := by
  unfold takeTurn
  split <;> rfl

/-! ## The host's step, operation by operation (43 R190) -/

/-- A step of a state whose script is known. -/
theorem step_eq_step_withScript {s : State} {ops : List HostOp} (hs : s.host.script = ops) :
    step s = step (withScript ops s) := by
  rw [withScript, ← hs]

/-- WAIT is one read of STATUS, which ends it when BUSY reads 0 (30 R102). -/
theorem step_wait {s : State} (hm : hostMoves s) (rest : List HostOp) :
    step (withScript (.wait :: rest) s) =
      .next (withScript (if s.status.busy then .wait :: rest else rest)
        (observe (regAddr .STATUS) (takeTurn s))) := by
  have hbit : (portRead (withScript (.wait :: rest) (takeTurn s)) (regAddr .STATUS)).getLsbD 0 =
      s.status.busy := by
    rw [portRead_reg rfl (.inr rfl), State.readReg, (statusWordLayout _).1, withScript_status,
      takeTurn_status]
  rw [step_withScript hm, runOp, waitStep, hbit, observe_withScript]
  split <;> rfl

theorem step_reset {s : State} (hm : hostMoves s) (rest : List HostOp) :
    step (withScript (.reset :: rest) s) =
      .next (withScript rest (resetEngine (takeTurn s))) := by
  rw [step_withScript hm]
  rfl

/-- Settles O8: each operation at the head of the script has its own step, which acts on the state
with the turn and the operation used up. -/
theorem stepRunsTheHostOperation : Obligations.StepRunsTheHostOperation := by
  intro s rest hm u
  have hu : u = withScript rest (takeTurn s) := by rw [takeTurn_eq_afterTurn]; rfl
  refine ⟨fun a hs => ⟨(observe a (takeTurn s)).host.draws, ?_⟩, fun a w hs => ?_, fun hs hb => ?_,
    fun hs hb => ?_, fun hs => ?_⟩ <;> rw [step_eq_step_withScript hs, hu]
  · rw [step_read hm, ← portRead_takeTurn, ← takeTurn_reads s]
    rfl
  · rw [step_write hm, portWrite_withScript]
  · rw [step_wait hm, hb, observe_statusWord, ← takeTurn_status s, ← takeTurn_reads s]
    rfl
  · rw [step_wait hm, hb, observe_statusWord, ← takeTurn_status s, ← takeTurn_reads s]
    rfl
  · rw [step_reset hm]
    rfl

/-- Settles O13: the step records the word of the port, which is exact at every address of the
table. -/
theorem hostReadTable : Obligations.HostReadTable := by
  intro s a rest hm hs
  refine ⟨withScript rest (observe a (takeTurn s)), portRead s a,
    (step_eq_step_withScript hs).trans (step_read hm a rest), ?_, rfl, ?_,
    (portRead_reg (r := .ID) · (.inr rfl)), (portRead_reg (r := .CFG) · (.inr rfl)),
    (portRead_reg (r := .CTRL) · (.inr rfl)), (portRead_reg (r := .STATUS) · (.inr rfl)),
    (portRead_reg (r := .CMD) · (.inr rfl)), (portRead_reg (r := .N) · (.inr rfl)),
    (portRead_reg (r := .M) · (.inr rfl)),
    fun i j hi hj => ⟨(portRead_entry (b := .A) hi hj · (.inr rfl)),
      (portRead_entry (b := .B) hi hj · (.inr rfl))⟩,
    fun hb => ⟨(portRead_reg (r := .DET) · (.inl hb)), (portRead_reg (r := .DETMOD) · (.inl hb)),
      (portRead_reg (r := .DETINV) · (.inl hb)), (portRead_reg (r := .COFV) · (.inl hb)),
      fun i j hi hj => ⟨(portRead_entry (b := .C) hi hj · (.inl hb)),
        (portRead_entry (b := .INV) hi hj · (.inl hb)),
        (portRead_entry (b := .ADJ) hi hj · (.inl hb)),
        (portRead_entry (b := .P) hi hj · (.inl hb))⟩⟩, portRead_reserved⟩
  · have hturn := sameEngine_takeTurn s
    rw [sameEngine] at hturn ⊢
    rw [hturn]
    rfl
  · rw [← portRead_takeTurn, ← takeTurn_reads s]
    rfl


/-! ## A host write (43 R192, R194) -/

section PortWrites

variable {s : State} {a : Addr} {w : Word}

theorem portWrite_reg {r : Reg} (ha : a.toNat = (regAddr r).toNat) :
    portWrite s a w = writeReg s w r := by
  rw [portWrite, addrTarget_reg ha]

theorem portWrite_entry {b : Bank} {i j : Nat} (hi : i < 10) (hj : j < 10)
    (ha : a.toNat = entryAddr b i j) : portWrite s a w = writeEntry s w b i j := by
  rw [portWrite, addrTarget_entry hi hj ha]

theorem portWrite_reserved (ha : reservedAddr a) : portWrite s a w = s := by
  rw [portWrite, (addrTarget_reserved_iff a).2 ha]

/-- The result banks ignore a host write. -/
theorem portWrite_resultBank (hlo : 0x300 ≤ a.toNat) : portWrite s a w = s := by
  by_cases hres : reservedAddr a
  · exact portWrite_reserved hres
  obtain ⟨b, i, j, ht, hb⟩ := exists_addrTarget_entry hres (by omega)
  rw [portWrite, ht]
  cases b with
  | A | B => simp only [bankBase] at hb; omega
  | C | INV | ADJ | P => rfl

/-- While BUSY = 1 the writable entries drop the write (10 R46). -/
theorem portWrite_operandBank_busy (hbusy : s.status.busy = true) (hlo : 0x100 ≤ a.toNat)
    (hhi : a.toNat ≤ 0x2FF) (hres : ¬ reservedAddr a) :
    portWrite s a w = { s with status := s.status.dropped } := by
  obtain ⟨b, i, j, ht, hb⟩ := exists_addrTarget_entry hres hlo
  rw [portWrite, ht]
  cases b with
  | A | B => exact frozenWrite_busy hbusy
  | C | INV | ADJ | P => simp only [bankBase] at hb; omega

end PortWrites

theorem ctrlWord_eq (w : Word) : ctrlWord w = if w.getLsbD 0 then 1 else 0 := by
  apply BitVec.eq_of_getLsbD_eq
  intro i hi
  rw [ctrlWord, BitVec.getLsbD_setWidth, BitVec.getLsbD_extractLsb']
  cases i <;> cases w.getLsbD 0 <;> simp

/-- Write-one-to-clear, as the claims write it: a flag is cleared where its bit is 1. -/
theorem Status.hostWrite_eq (st : Status) (w : Word) : st.hostWrite w = { st with
    done := if w.getLsbD 1 then false else st.done
    wdrop := if w.getLsbD 4 then false else st.wdrop } := by
  rw [Status.hostWrite]
  cases w.getLsbD 1 <;> cases w.getLsbD 4 <;> simp

/-- What an accepted write to a bank does to the banks: the entry reads the word, every other address
reads as before. -/
theorem entry_memWrite {t : State} {m : Memory} {b : Bank} {i j : Nat} {w : Word}
    (ht : t.mem = memWrite m (entryAddr b i j) w) :
    t.entry b i j = w ∧ ∀ x, x ≠ entryAddr b i j → memRead t.mem x = memRead m x := by
  rw [State.entry, ht]
  exact ⟨memRead_memWrite_self m _ w, fun x hx => memRead_memWrite_of_ne m w hx⟩

theorem issueCommand_eq (w : Word) (s : State) : issueCommand w s = { s with
    cmdLatch := w.extractLsb' 0 32
    status := { s.status with busy := true, done := false, err := false, errcode := 0 } } := by
  rw [← BitVec.setWidth_eq_extractLsb' (by decide)]
  rfl

/-- Settles O14: each address of the table names a register, an entry or nothing, and what is written
there is accepted, dropped or ignored. -/
theorem hostWriteTable : Obligations.HostWriteTable := by
  intro s a w
  refine ⟨?ignored, fun ha => ?ctrl, fun ha => ?status, fun hidle => ?idle, fun hbusy => ?busy⟩
  case ignored =>
    rintro (ha | ha | ha | ha | ha | ha | ⟨ha, -⟩)
    exacts [portWrite_reg (r := .ID) ha, portWrite_reg (r := .CFG) ha,
      portWrite_reg (r := .DETMOD) ha, portWrite_reg (r := .DETINV) ha,
      portWrite_reg (r := .COFV) ha, portWrite_reserved ha, portWrite_resultBank ha]
  case ctrl => rw [portWrite_reg (r := .CTRL) ha, writeReg, ctrlWord_eq]
  case status => rw [portWrite_reg (r := .STATUS) ha, writeReg, Status.hostWrite_eq]
  case idle =>
    have haccept : ∀ t, frozenWrite s t = t := fun _ => frozenWrite_idle hidle
    refine ⟨fun ha => ?_, fun ha => ?_, fun ha => ?_, fun ha => ?_, fun i j hi hj ha => ?_,
      fun i j hi hj ha => ?_⟩
    · rw [portWrite_reg (r := .CMD) ha, writeReg, haccept, issueCommand_eq]
    · exact (portWrite_reg (r := .N) ha).trans (haccept _)
    · exact (portWrite_reg (r := .M) ha).trans (haccept _)
    · exact (portWrite_reg (r := .DET) ha).trans (haccept _)
    · rw [portWrite_entry (b := .A) hi hj ha, writeEntry, haccept]
      exact ⟨rfl, entry_memWrite rfl⟩
    · rw [portWrite_entry (b := .B) hi hj ha, writeEntry, haccept]
      exact ⟨rfl, entry_memWrite rfl⟩
  case busy =>
    have hdrop : ∀ t, frozenWrite s t = { s with status := s.status.dropped } :=
      fun _ => frozenWrite_busy hbusy
    rintro (ha | ha | ha | ha | ⟨hlo, hhi, hres⟩)
    exacts [(portWrite_reg (r := .CMD) ha).trans (hdrop _),
      (portWrite_reg (r := .N) ha).trans (hdrop _), (portWrite_reg (r := .M) ha).trans (hdrop _),
      (portWrite_reg (r := .DET) ha).trans (hdrop _),
      portWrite_operandBank_busy hbusy hlo hhi hres]

theorem takeTurn_idle {s : State} (hb : s.status.busy = false) : takeTurn s = s := by
  rw [takeTurn, hb]
  rfl

/-- Settles O15: an idle host moves without a turn, and its write to CMD is accepted. -/
theorem issueOfACommand : Obligations.IssueOfACommand := by
  intro s w rest hb hs
  have hwrite : portWrite s 0x004 w = issueCommand w s :=
    (portWrite_reg (r := .CMD) rfl).trans (frozenWrite_idle hb)
  rw [step_eq_step_withScript hs, step_write (.inl hb), takeTurn_idle hb, hwrite, issueCommand_eq]
  rfl

/-! ## The completion always comes (43 R197, R198) -/

/-- Settles O7: the engine moves with one turn used up, and its step is the completion of the command
the latch decodes to. -/
theorem stepCompletesTheCommandInFlight : Obligations.StepCompletesTheCommandInFlight := by
  intro s i hm hi
  rw [step, mover_eq_engine_iff.2 hm, ← takeTurn_eq_afterTurn]
  simp only [engineStep, takeTurn_cmdLatch, hi]

/-- The engine's step completes the word in flight, legal or not. -/
theorem exists_engineStep (s : State) :
    ∃ t, engineStep s = .next t ∧ t.status.busy = false ∧ t.status.done = true := by
  have hnext : ∃ t, engineStep s = .next t := by
    unfold engineStep
    split
    · exact ⟨_, exec_eq_next _ _⟩
    · exact ⟨_, rfl⟩
  obtain ⟨t, ht⟩ := hnext
  refine ⟨t, ht, ?_⟩
  rcases engineStep_cases ht with ⟨-, rfl⟩ | ⟨i, -, ⟨u, -, rfl⟩ | ⟨e, -, rfl⟩⟩
  · exact ⟨rfl, rfl⟩
  · exact ⟨rfl, rfl⟩
  · exact ⟨rfl, rfl⟩

/-- An operation that reaches the port is refused by no wrapper. -/
theorem exists_runOp {op : HostOp} (h : portOp op = true) (s : State) :
    ∃ t, runOp op s = .next t := by
  cases op with
  | read a => exact ⟨_, rfl⟩
  | write a w => exact ⟨_, rfl⟩
  | wait => exact ⟨_, rfl⟩
  | reset => exact ⟨_, rfl⟩
  | busRead byteAddr size =>
    simp only [portOp, Bool.and_eq_true, decide_eq_true_eq, and_assoc] at h
    simp only [runOp, wrapperAddr, if_pos h]
    exact ⟨_, rfl⟩
  | busWrite byteAddr data =>
    simp only [portOp, Bool.and_eq_true, decide_eq_true_eq, and_assoc] at h
    simp only [runOp, wrapperAddr, if_pos h]
    exact ⟨_, rfl⟩

/-- No operation of the host touches the schedule, and none adds to the script. -/
theorem runOp_host {op : HostOp} {s t : State} (h : runOp op s = .next t) :
    t.host.turns = s.host.turns ∧ t.host.script ⊆ s.host.script := by
  have hdrop : s.host.script.drop 1 ⊆ s.host.script := List.drop_subset 1 _
  rcases runOp_cases h with ⟨a, rfl⟩ | ⟨b, a, rfl⟩ | ⟨a, w, rfl⟩ | rfl | ⟨-, rfl⟩
  · exact ⟨rfl, hdrop⟩
  · exact ⟨rfl, hdrop⟩
  · rw [nextOp_host, portWrite_host]
    exact ⟨rfl, hdrop⟩
  · exact ⟨rfl, List.Subset.refl _⟩
  · exact ⟨rfl, hdrop⟩

/-- A host step while BUSY = 1 that reaches the port leaves the command in flight, one turn of the
schedule nearer to its completion. -/
theorem exists_step_of_hostMoves {s : State} (hb : s.status.busy = true) (hm : hostMoves s)
    (hops : ∀ op ∈ s.host.script, portOp op = true) :
    ∃ t, step s = .next t ∧ t.status.busy = true ∧ t.host.turns = s.host.turns.drop 1 ∧
      t.host.script ⊆ s.host.script := by
  have hturns : (takeTurn s).host.turns = s.host.turns.drop 1 := by rw [takeTurn_host, if_pos hb]
  cases hs : s.host.script with
  | nil =>
    refine ⟨takeTurn s, ?_, (takeTurn_status s).symm ▸ hb, hturns, ?_⟩
    · rw [step, mover_eq_host_iff.2 hm]
      simp only [hostStep, takeTurn_script, hs]
    · rw [takeTurn_script, hs]
      exact List.Subset.refl _
  | cons op rest =>
    have hop : portOp op = true := hops op (by rw [hs]; exact List.mem_cons_self)
    obtain ⟨t, ht⟩ := exists_runOp hop (takeTurn s)
    have hstep : step s = .next t := (step_of_hostMoves hm hs).trans ht
    have hreset : s.host.script.head? ≠ some .reset := by
      rw [hs]
      rintro ⟨⟩
      exact nomatch hop
    obtain ⟨htt, hts⟩ := runOp_host ht
    rw [takeTurn_script, hs] at hts
    refine ⟨t, hstep, ?_, htt.trans hturns, hts⟩
    rw [hostCannotChangeFrozenState s t hb hm hreset hstep]
    exact hb

theorem run_succ {s t : State} (h : step s = .next t) (k : Nat) :
    Host.Core.run core (k + 1) s = Host.Core.run core k t := by
  have hcore : core.step s = .next t := h
  simp only [Host.Core.run, hcore]

/-- A step of the engine is one step to the completion. -/
theorem exists_completion_of_engineMoves {s : State} (hm : engineMoves s) :
    ∃ t, Host.Core.run core 1 s = .next t ∧ t.status.busy = false ∧ t.status.done = true := by
  obtain ⟨t, ht, hend⟩ := exists_engineStep (takeTurn s)
  have hstep : step s = .next t := by rw [step, mover_eq_engine_iff.2 hm]; exact ht
  exact ⟨t, run_succ hstep 0, hend⟩

/-- Settles O10: by induction on the schedule, which every turn of the host shortens. -/
theorem completionAlwaysComes : Obligations.CompletionAlwaysComes := by
  intro s hb hops
  induction hturns : s.host.turns generalizing s with
  | nil =>
    obtain ⟨t, ht⟩ := exists_completion_of_engineMoves (s := s) ⟨hb, by rw [hturns]; rfl⟩
    exact ⟨1, t, by simp, ht⟩
  | cons agent turns ih =>
    cases agent with
    | engine =>
      obtain ⟨t, ht⟩ := exists_completion_of_engineMoves (s := s) ⟨hb, by rw [hturns]; rfl⟩
      exact ⟨1, t, by simp, ht⟩
    | host =>
      obtain ⟨t, hstep, htb, htt, hts⟩ :=
        exists_step_of_hostMoves hb (.inr (by rw [hturns]; rfl)) hops
      rw [hturns] at htt
      obtain ⟨k, u, hk, hrun, hend⟩ := ih t htb (fun op hop => hops op (hts hop)) htt
      exact ⟨k + 1, u, by simpa using hk, (run_succ hstep k).trans hrun, hend⟩

end Sys2Proof.Machine

namespace Sys2Proof.Machine

/-! ## Every command completes (43 R198) -/

/-- Settles O36: a command ends without an error, its result having left WDROP alone, or with a code
of 60 R221. -/
theorem everyCommandCompletes : Obligations.EveryCommandCompletes := by
  intro i s
  cases h : resultOf i s with
  | ok u =>
    have hwdrop : u.status.wdrop = s.status.wdrop := by rw [resultOf_frame h]
    exact ⟨endedOk u, exec_of_ok h, rfl, rfl, hwdrop, by simp [endedOk], by simp [endedOk]⟩
  | error e =>
    have herr : (true = true) ↔ e.num ≠ 0 := iff_of_true rfl (errCode_num_pos e)
    exact ⟨endedIn e.num s, exec_of_error h, rfl, rfl, rfl, herr, errCode_num_le e⟩

/-! ## What a command writes (43 R199, R200) -/

section ResultFrame

variable {i : Instr} {s u : State}

/-- A result register changes only where the row of the command lists it. -/
theorem resultOf_registers (h : resultOf i s = .ok u) :
    (.DET ∉ registersWritten i → u.det = s.det) ∧
    (.DETMOD ∉ registersWritten i → u.detmod = s.detmod) ∧
    (.DETINV ∉ registersWritten i → u.detinv = s.detinv) ∧
    (.COFV ∉ registersWritten i → u.cofv = s.cofv) := by
  cases i with
  | det => obtain ⟨k, -, -, rfl⟩ := detResult_eq_ok.1 h; simp [registersWritten]
  | cof i j => obtain ⟨k, -, -, -, rfl⟩ := cofResult_eq_ok.1 h; simp [registersWritten]
  | adj => obtain ⟨k, -, -, -, rfl⟩ := adjResult_eq_ok.1 h; simp [registersWritten]
  | modinv => obtain ⟨m, x, -, -, rfl⟩ := modinvResult_eq_ok.1 h; simp [registersWritten]
  | minv => obtain ⟨k, m, di, -, -, -, -, -, rfl⟩ := minvResult_eq_ok.1 h; simp [registersWritten]
  | mmul sa sb rc => obtain ⟨k, m, -, -, -, -, -, rfl⟩ := mmulResult_eq_ok.1 h; simp

theorem readReg_of_resultOf (h : resultOf i s = .ok u) {r : Reg} (hr : r ≠ .STATUS)
    (hw : r ∉ registersWritten i) : u.readReg r = s.readReg r := by
  obtain ⟨hdet, hdetmod, hdetinv, hcofv⟩ := resultOf_registers h
  cases r with
  | ID | CFG | CMD => rfl
  | CTRL | N | M => rw [resultOf_frame h]; rfl
  | STATUS => exact absurd rfl hr
  | DET => exact hdet hw
  | DETMOD => exact hdetmod hw
  | DETINV => exact hdetinv hw
  | COFV => exact hcofv hw

/-- A command that succeeds has a legal dimension where it writes a bank, so the window it may change
is inside the implemented corner. -/
theorem memRead_of_resultOf (h : resultOf i s = .ok u) {a : Nat}
    (ha : ∀ b ∈ banksWritten i, ∀ r c : Nat, r < 10 → c < 10 → (r : Int) < s.n.toInt →
      (c : Int) < s.n.toInt → a ≠ entryAddr b r c) :
    memRead u.mem a = memRead s.mem a := by
  have houtside {k : Nat} (hk : dimension? s = some k) {b : Bank} (hb : b ∈ banksWritten i)
      (r c : Fin (k + 1)) : a ≠ entryAddr b r.val c.val := by
    obtain ⟨hn, hk10⟩ := dimension?_eq_some.1 hk
    rw [toS] at hn
    exact ha b hb r c (by omega) (by omega) (by omega) (by omega)
  cases i with
  | det => obtain ⟨k, -, -, rfl⟩ := detResult_eq_ok.1 h; rfl
  | cof i j => obtain ⟨k, -, -, -, rfl⟩ := cofResult_eq_ok.1 h; rfl
  | adj =>
    obtain ⟨k, hk, -, -, rfl⟩ := adjResult_eq_ok.1 h
    exact memRead_writeWindow_outside _ (houtside hk (by decide))
  | modinv => obtain ⟨m, x, -, -, rfl⟩ := modinvResult_eq_ok.1 h; rfl
  | minv =>
    obtain ⟨k, m, di, hk, -, -, -, -, rfl⟩ := minvResult_eq_ok.1 h
    exact (memRead_writeWindow_outside _ (houtside hk (by simp [banksWritten]))).trans
      (memRead_writeWindow_outside _ (houtside hk (by simp [banksWritten])))
  | mmul sa sb rc =>
    obtain ⟨k, m, hk, -, -, -, -, rfl⟩ := mmulResult_eq_ok.1 h
    exact (memRead_writeWindow_outside _ (houtside hk (by simp [banksWritten]))).trans
      (memRead_writeWindow_outside _ (houtside hk (by simp [banksWritten])))

/-- The entries of a bank outside the row of the command are untouched. -/
theorem entry_of_resultOf (h : resultOf i s = .ok u) {b : Bank} (hb : b ∉ banksWritten i)
    {r c : Nat} (hr : r < 10) (hc : c < 10) : u.entry b r c = s.entry b r c :=
  memRead_of_resultOf h fun _ hb' _ _ hr' hc' _ _ e =>
    hb (((entryAddr_inj (by omega) (by omega) (by omega) (by omega)).1 e).1 ▸ hb')

end ResultFrame

/-- STATUS is seen by reads of STATUS alone. -/
theorem readReg_of_ne_status (s : State) (st : Status) {r : Reg} (hr : r ≠ .STATUS) :
    State.readReg { s with status := st } r = s.readReg r := by
  cases r with
  | STATUS => exact absurd rfl hr
  | ID | CFG | CTRL | CMD | N | M | DET | DETMOD | DETINV | COFV => rfl

theorem operandBanks_not_written (i : Instr) : .A ∉ banksWritten i ∧ .B ∉ banksWritten i := by
  cases i <;> simp [banksWritten]

/-- Settles O38: an error writes STATUS only, and a result is written where the row of the command
says. -/
theorem commandsWriteOnlyTheirResults : Obligations.CommandsWriteOnlyTheirResults := by
  intro i s t h
  rw [exec_eq_complete, complete_eq_next] at h
  obtain ⟨u, hu, rfl⟩ | ⟨e, -, rfl⟩ := h
  · obtain ⟨hA, hB⟩ := operandBanks_not_written i
    obtain ⟨hctrl, hn, hm, hlatch, hhost⟩ : u.ctrl = s.ctrl ∧ u.n = s.n ∧ u.m = s.m ∧
        u.cmdLatch = s.cmdLatch ∧ u.host = s.host := by
      rw [resultOf_frame hu]
      exact ⟨rfl, rfl, rfl, rfl, rfl⟩
    refine ⟨hctrl, hn, hm, hlatch, hhost, fun r hr hw => ?_, fun hi => (resultOf_keeps_key hu hi).1,
      fun r c hr hc => ⟨entry_of_resultOf hu hA hr hc, entry_of_resultOf hu hB hr hc⟩,
      fun a ha => memRead_of_resultOf hu fun b hb r c _ _ => ha b hb r c⟩
    exact (readReg_of_ne_status _ _ hr).trans (readReg_of_resultOf hu hr hw)
  · exact ⟨rfl, rfl, rfl, rfl, rfl, fun r hr _ => readReg_of_ne_status _ _ hr, fun _ => rfl,
      fun _ _ _ _ => ⟨rfl, rfl⟩, fun _ _ => rfl⟩

/-! ## What a command reads (43 R199) -/

/-- Two ends of a command that agree: the same error, or results that agree on what the command
wrote. -/
inductive SameOutcome (i : Instr) : Except ErrCode State → Except ErrCode State → Prop where
  | ok {u u' : State} (h : sameResults i u u') : SameOutcome i (.ok u) (.ok u')
  | error (e : ErrCode) : SameOutcome i (.error e) (.error e)

section Congruence

variable {s s' : State} {k : Nat}

theorem dimension?_congr (h : s.n = s'.n) : dimension? s' = dimension? s := by
  rw [dimension?, dimension?, h]

theorem modulus?_congr (h : s.m = s'.m) : modulus? s' = modulus? s := by
  rw [modulus?, modulus?, h]

theorem win_congr {b : Bank} (hk : dimension? s = some k) (h : sameWindow b s s') :
    win s' b (k + 1) = win s b (k + 1) := by
  obtain ⟨hn, -⟩ := dimension?_eq_some.1 hk
  funext i j
  rw [win, win, h i j (by omega) (by omega)]

/-- The same matrix written over the window of dimension n makes two states agree there. -/
theorem sameWindow_of_writeWindow {t t' : State} {m m' : Memory} {b : Bank} {X : Mat (k + 1)}
    (hn : toS t.n = k + 1) (hk : k + 1 ≤ 10) (ht : t.mem = writeWindow m b X)
    (ht' : t'.mem = writeWindow m' b X) : sameWindow b t t' := by
  intro i j hi hj
  have hread (m : Memory) := memRead_writeWindow_inside (by omega) (b := b) (X := X) m
    ⟨i, by omega⟩ ⟨j, by omega⟩
  rw [State.entry, State.entry, ht, ht']
  exact (hread m).trans (hread m').symm

/-- So does the same matrix with the window of another bank written after it. -/
theorem sameWindow_of_writeWindow_writeWindow {t t' : State} {m m' : Memory} {b b' : Bank}
    {X Y : Mat (k + 1)} (hb : b ≠ b') (hn : toS t.n = k + 1) (hk : k + 1 ≤ 10)
    (ht : t.mem = writeWindow (writeWindow m b X) b' Y)
    (ht' : t'.mem = writeWindow (writeWindow m' b X) b' Y) : sameWindow b t t' := by
  intro i j hi hj
  have hother (m : Memory) := memRead_writeWindow_other (k := k + 1) (by omega) hb (X := Y) m
    (i := i) (j := j) (by omega) (by omega)
  have hread (m : Memory) := memRead_writeWindow_inside (by omega) (b := b) (X := X) m
    ⟨i, by omega⟩ ⟨j, by omega⟩
  rw [State.entry, State.entry, ht, ht', hother, hother]
  exact (hread m).trans (hread m').symm

theorem sameOutcome_det (hn : s.n = s'.n) (hA : sameWindow .A s s') :
    SameOutcome .det (detResult s) (detResult s') := by
  rw [detResult, detResult, dimension?_congr hn]
  cases hk : dimension? s with
  | none => exact .error _
  | some k =>
    simp only [win_congr hk hA]
    split
    · exact .ok rfl
    · exact .error _

theorem sameOutcome_cof (i j : Nat) (hn : s.n = s'.n) (hA : sameWindow .A s s') :
    SameOutcome (.cof i j) (cofResult i j s) (cofResult i j s') := by
  rw [cofResult, cofResult, dimension?_congr hn]
  cases hk : dimension? s with
  | none => exact .error _
  | some k =>
    simp only [win_congr hk hA]
    split
    · split
      · exact .ok rfl
      · exact .error _
    · exact .error _

theorem sameOutcome_adj (hn : s.n = s'.n) (hA : sameWindow .A s s') :
    SameOutcome .adj (adjResult s) (adjResult s') := by
  rw [adjResult, adjResult, dimension?_congr hn]
  cases hk : dimension? s with
  | none => exact .error _
  | some k =>
    obtain ⟨hsn, hk10⟩ := dimension?_eq_some.1 hk
    simp only [win_congr hk hA]
    split
    · exact .ok ⟨rfl, sameWindow_of_writeWindow hsn hk10 rfl rfl⟩
    · exact .error _

theorem sameOutcome_modinv (hm : s.m = s'.m) (hdet : s.det = s'.det) :
    SameOutcome .modinv (modinvResult s) (modinvResult s') := by
  rw [modinvResult, modinvResult, modulus?_congr hm, ← hdet]
  cases modulus? s with
  | none => exact .error _
  | some m =>
    dsimp only
    cases modinvOrNone (toS s.det % m) m with
    | none => exact .error _
    | some x => exact .ok ⟨rfl, rfl⟩

theorem sameOutcome_minv (hn : s.n = s'.n) (hm : s.m = s'.m) (hA : sameWindow .A s s') :
    SameOutcome .minv (minvResult s) (minvResult s') := by
  rw [minvResult, minvResult, dimension?_congr hn, modulus?_congr hm]
  cases hk : dimension? s with
  | none => exact .error _
  | some k =>
    cases modulus? s with
    | none => exact .error _
    | some m =>
      obtain ⟨hsn, hk10⟩ := dimension?_eq_some.1 hk
      simp only [win_congr hk hA]
      cases modinvOrNone (matDet (win s .A (k + 1)) % m) m with
      | none => exact .error _
      | some di =>
        dsimp only
        split
        · exact .ok ⟨rfl, rfl, rfl,
            sameWindow_of_writeWindow_writeWindow (by decide) hsn hk10 rfl rfl,
            sameWindow_of_writeWindow hsn hk10 rfl rfl, rfl, rfl⟩
        · exact .error _

theorem sameOutcome_mmul {sa sb : BankSel} (rc : Bool) (hn : s.n = s'.n) (hm : s.m = s'.m)
    (hinvv : s.status.invv = s'.status.invv) (hX : sameWindow (selBank sa) s s')
    (hY : sameWindow (selBank sb) s s') :
    SameOutcome (.mmul sa sb rc) (mmulResult sa sb rc s) (mmulResult sa sb rc s') := by
  rw [mmulResult, mmulResult, dimension?_congr hn, modulus?_congr hm, inverseMissing,
    inverseMissing, ← hinvv]
  cases hk : dimension? s with
  | none => exact .error _
  | some k =>
    cases modulus? s with
    | none => exact .error _
    | some m =>
      obtain ⟨hsn, hk10⟩ := dimension?_eq_some.1 hk
      simp only [win_congr hk hX, win_congr hk hY]
      split
      · exact .error _
      split
      · exact .error _
      split
      · exact .ok ⟨sameWindow_of_writeWindow_writeWindow (by decide) hsn hk10 rfl rfl,
          sameWindow_of_writeWindow hsn hk10 rfl rfl⟩
      · exact .error _

end Congruence

/-- A command's outcome depends only on what its row of 43 R199 says it reads. -/
theorem sameOutcome_resultOf {i : Instr} {s s' : State} (h : sameReads i s s') :
    SameOutcome i (resultOf i s) (resultOf i s') := by
  cases i with
  | det =>
    obtain ⟨hn, hA⟩ := h
    exact sameOutcome_det hn hA
  | cof row col =>
    obtain ⟨hn, hA⟩ := h
    exact sameOutcome_cof row col hn hA
  | adj =>
    obtain ⟨hn, hA⟩ := h
    exact sameOutcome_adj hn hA
  | modinv =>
    obtain ⟨hm, hdet⟩ := h
    exact sameOutcome_modinv hm hdet
  | minv =>
    obtain ⟨hn, hm, hA⟩ := h
    exact sameOutcome_minv hn hm hA
  | mmul sa sb rc =>
    obtain ⟨hn, hm, hinvv, hX, hY⟩ := h
    exact sameOutcome_mmul rc hn hm hinvv hX hY

/-- The end of a command changes nothing that the results are compared by. -/
theorem sameResults_succeed {i : Instr} {u u' : State} (h : sameResults i u u') :
    sameResults i (succeed u) (succeed u') := by
  cases i <;> exact h

/-- Settles O39: equal reads have equal outcomes, and the two ends of a command keep them. -/
theorem resultsDependOnlyOnOperands : Obligations.ResultsDependOnlyOnOperands := by
  intro i s s' t t' h ht ht'
  have hsame := sameOutcome_resultOf h
  rw [exec_eq_complete] at ht ht'
  generalize resultOf i s = r at ht hsame
  generalize resultOf i s' = r' at ht' hsame
  cases hsame with
  | ok hresults =>
    cases ht
    cases ht'
    exact ⟨rfl, rfl, fun _ => sameResults_succeed hresults⟩
  | error e =>
    cases ht
    cases ht'
    exact ⟨rfl, rfl, nofun⟩

/-! ## The host and the command in flight (43 R198, 10 R46) -/

/-- `u` with what a host step while BUSY = 1 may have changed, taken from `t`. -/
def withHostChanges (t u : State) : State :=
  { u with ctrl := t.ctrl, host := t.host,
           status := { u.status with done := t.status.done, wdrop := t.status.wdrop } }

theorem sameReads_withHostChanges (i : Instr) (s t : State) :
    sameReads i s (withHostChanges t s) := by
  have hwindow (b : Bank) : sameWindow b s (withHostChanges t s) := fun _ _ _ _ => rfl
  cases i with
  | det => exact ⟨rfl, hwindow _⟩
  | cof row col => exact ⟨rfl, hwindow _⟩
  | adj => exact ⟨rfl, hwindow _⟩
  | modinv => exact ⟨rfl, rfl⟩
  | minv => exact ⟨rfl, rfl, hwindow _⟩
  | mmul sa sb rc => exact ⟨rfl, rfl, rfl, hwindow _, hwindow _⟩

/-- What the host changed passes through a command that succeeds. -/
theorem resultOf_withHostChanges_ok {i : Instr} {s u : State} (t : State)
    (h : resultOf i s = .ok u) :
    resultOf i (withHostChanges t s) = .ok (withHostChanges t u) := by
  cases i with
  | det =>
    obtain ⟨k, hk, hfit, rfl⟩ := detResult_eq_ok.1 h
    exact detResult_eq_ok.2 ⟨k, hk, hfit, rfl⟩
  | cof row col =>
    obtain ⟨k, hk, hrc, hfit, rfl⟩ := cofResult_eq_ok.1 h
    exact cofResult_eq_ok.2 ⟨k, hk, hrc, hfit, rfl⟩
  | adj =>
    obtain ⟨k, hk, hdet, hadj, rfl⟩ := adjResult_eq_ok.1 h
    exact adjResult_eq_ok.2 ⟨k, hk, hdet, hadj, rfl⟩
  | modinv =>
    obtain ⟨m, x, hm, hx, rfl⟩ := modinvResult_eq_ok.1 h
    exact modinvResult_eq_ok.2 ⟨m, x, hm, hx, rfl⟩
  | minv =>
    obtain ⟨k, m, di, hk, hm, hdi, hdet, hadj, rfl⟩ := minvResult_eq_ok.1 h
    exact minvResult_eq_ok.2 ⟨k, m, di, hk, hm, hdi, hdet, hadj, rfl⟩
  | mmul sa sb rc =>
    obtain ⟨k, m, hk, hm, hinv, hrange, hfit, rfl⟩ := mmulResult_eq_ok.1 h
    exact mmulResult_eq_ok.2 ⟨k, m, hk, hm, hinv, hrange, hfit, rfl⟩

theorem resultOf_withHostChanges_error {i : Instr} {s : State} {e : ErrCode} (t : State)
    (h : resultOf i s = .error e) : resultOf i (withHostChanges t s) = .error e := by
  have hsame := sameOutcome_resultOf (sameReads_withHostChanges i s t)
  rw [h] at hsame
  generalize resultOf i (withHostChanges t s) = r at hsame
  cases hsame
  rfl

/-- Settles O20: the host changes nothing a command reads, and the command passes on what the host
did change, but for DONE. -/
theorem hostCannotInfluenceTheResult : Obligations.HostCannotInfluenceTheResult := by
  intro s t u v i hb hm hreset hstep hu hv
  have ht : t = withHostChanges t s := hostCannotChangeFrozenState s t hb hm hreset hstep
  cases hr : resultOf i s with
  | ok r =>
    have hr' : resultOf i t = .ok (withHostChanges t r) := by
      rw [ht]
      exact resultOf_withHostChanges_ok t hr
    rw [exec_of_ok hr] at hu
    rw [exec_of_ok hr'] at hv
    cases hu
    cases hv
    rfl
  | error e =>
    have hr' : resultOf i t = .error e := by
      rw [ht]
      exact resultOf_withHostChanges_error t hr
    rw [exec_of_error hr] at hu
    rw [exec_of_error hr'] at hv
    cases hu
    cases hv
    exact congrArg (endedIn e.num) ht

end Sys2Proof.Machine

namespace Sys2Proof.Machine

/-! ## A command that fails (60 R232) -/

/-- A command that ends with an error had no result. -/
theorem exists_resultOf_of_err {i : Instr} {s t : State} (h : exec i s = .next t)
    (herr : t.status.err = true) : ∃ e, resultOf i s = .error e ∧ t = endedIn e.num s := by
  rw [exec_eq_complete, complete_eq_next] at h
  obtain ⟨u, -, rfl⟩ | herror := h
  · cases herr
  · exact herror

/-- Settles O37: an error discards what the command computed, and its code is one of 60 R221. -/
theorem errorsWriteOnlyStatus : Obligations.ErrorsWriteOnlyStatus := by
  intro i s t h herr
  obtain ⟨e, -, rfl⟩ := exists_resultOf_of_err h herr
  have hpos : e.num.toNat ≠ 0 := BitVec.toNat_ne.1 (errCode_num_pos e)
  exact ⟨rfl, Nat.one_le_iff_ne_zero.2 hpos, errCode_num_le e⟩

/-! ## The interrupt line (60 R236) -/

theorem State.irq_eq_true_iff {s : State} :
    s.irq = true ↔ s.ctrl.getLsbD 0 = true ∧ s.status.done = true := by
  rw [State.irq, State.ie, Bool.and_eq_true]

theorem State.irq_of_done {s : State} (h : s.status.done = true) : s.irq = s.ctrl.getLsbD 0 := by
  rw [State.irq, h, Bool.and_true, State.ie]

theorem State.irq_of_not_done {s : State} (h : s.status.done = false) : s.irq = false := by
  rw [State.irq, h, Bool.and_false]

/-- A completion, successful or not, sets DONE and leaves CTRL alone. -/
theorem engineStep_done_ctrl {s t : State} (h : engineStep s = .next t) :
    t.status.done = true ∧ t.ctrl = s.ctrl := by
  rcases engineStep_cases h with ⟨-, rfl⟩ | ⟨i, -, ⟨u, hu, rfl⟩ | ⟨e, -, rfl⟩⟩
  · exact ⟨rfl, rfl⟩
  · have hctrl : u.ctrl = s.ctrl := by rw [resultOf_frame hu]
    exact ⟨rfl, hctrl⟩
  · exact ⟨rfl, rfl⟩

theorem step_of_engineMoves {s : State} (hm : engineMoves s) :
    step s = engineStep (takeTurn s) := by
  rw [step, mover_eq_engine_iff.2 hm]

/-- Settles O16: the line follows DONE, which a completion sets and which a write-one, an issue and
a reset clear. -/
theorem interruptLine : Obligations.InterruptLine := by
  intro s
  refine ⟨State.irq_eq_true_iff, fun t hm h => ?completion,
    fun w hw => State.irq_of_not_done ?writeOne, fun w hb => State.irq_of_not_done ?issue,
    State.irq_of_not_done rfl⟩
  case completion =>
    rw [step_of_engineMoves hm] at h
    obtain ⟨hdone, hctrl⟩ := engineStep_done_ctrl h
    exact ⟨hdone, by rw [State.irq_of_done hdone, hctrl, takeTurn_ctrl]⟩
  case writeOne =>
    rw [portWrite_reg (a := 0x003) (r := .STATUS) rfl, writeReg, Status.hostWrite_eq, if_pos hw]
  case issue =>
    rw [portWrite_reg (a := 0x004) (r := .CMD) rfl, writeReg, frozenWrite_idle hb]
    rfl

end Sys2Proof.Machine

namespace Sys2Proof.Machine

/-! ## Reset (70 R261) and the empty script (70 R262) -/

/-- Settles O23: the reset operation answers the reset state with the host's side kept, and every other
host step keeps all but CTRL, DONE, WDROP and the host's side. -/
theorem resetAbandonsTheCommand : Obligations.ResetAbandonsTheCommand := by
  refine ⟨fun s rest _ hm hs => ?reset, fun s t hb hm hreset hstep => ?others⟩
  case reset =>
    refine ⟨withScript rest (resetEngine (takeTurn s)), ?_, rfl, rfl, rfl, rfl, rfl, rfl,
      fun _ _ _ => rfl, rfl, rfl, rfl, rfl⟩
    rw [step_eq_step_withScript hs, step_reset hm]
  case others =>
    rw [hostCannotChangeFrozenState s t hb hm hreset hstep]
    exact ⟨hb, rfl⟩

/-- A host with nothing to do lets its turn pass (log entry 15). -/
theorem step_of_empty_script {s : State} (hm : hostMoves s) (hs : s.host.script = []) :
    step s = .next (takeTurn s) := by
  rw [step, mover_eq_host_iff.2 hm]
  simp only [hostStep, takeTurn_script, hs]

/-- Settles O9: only the host can move an idle machine, and its step uses up no turn. -/
theorem idleMachineWaits : Obligations.IdleMachineWaits := by
  intro s hb hs
  rw [step_of_empty_script (.inl hb) hs, takeTurn_idle hb]

/-! ## The reset value of N is no dimension (70 R264) -/

/-- Every command but MODINV reads n, and checks it first (60 R225). -/
theorem resultOf_eq_shape {i : Instr} {s : State} (hi : i ≠ .modinv) (h : dimension? s = none) :
    resultOf i s = .error .shape := by
  cases i with
  | det => exact detResult_eq_shape h
  | cof row col => exact cofResult_eq_shape h
  | adj => exact adjResult_eq_shape h
  | modinv => exact absurd rfl hi
  | minv => exact minvResult_eq_shape h
  | mmul sa sb rc => exact mmulResult_eq_shape h

theorem dimension?_of_reset_n {s : State} (h : s.n = State.reset.n) : dimension? s = none := by
  rw [dimension?_eq_none, h]
  decide

/-- Settles O24: the five commands that read n find no dimension in the reset value 0. -/
theorem matrixCommandsNeedADimension : Obligations.MatrixCommandsNeedADimension := by
  intro s hn
  have hshape {i : Instr} (hi : i ≠ .modinv) : exec i s = .next (endedIn 2 s) :=
    exec_of_error (resultOf_eq_shape hi (dimension?_of_reset_n hn))
  exact ⟨hshape nofun, fun _ _ => hshape nofun, hshape nofun, hshape nofun,
    fun _ _ _ => hshape nofun⟩

end Sys2Proof.Machine
